-- ==== Sys2Proof/Word.lean ====
section
/-! DEFINITION. The two value types that cross the block's ports beside field tuples:
the 32-bit word (rule R10) and text (rule R11). -/

namespace Sys2Proof

/-- `Word32`: a natural number below 2^32, bit 0 the least significant (rules R10, R60). -/
abbrev Word := BitVec 32

/-- A string is a finite sequence of characters; its length counts characters, and character 0 is
the leftmost (rule R11, decision D15). -/
abbrev Text := List Char

end Sys2Proof
end

