-- ==== Sys2Proof/Config.lean ====
section
/-! DEFINITION. The block's fixed parameters (rule R8). The spec leaves none of them open (rule R9),
so nothing here is a free value. -/

namespace Sys2Proof

/-- The names of the fields of the three layouts, as error payloads carry them
(rules R24 to R26, R202). -/
inductive FieldName where
  | opcode
  | rs
  | rt
  | rd
  | shamt
  | funct
  | immediate
  | address
deriving DecidableEq, Repr

namespace Config

/-- WORD_WIDTH (rule R8): every word of every layout. -/
def wordWidth : Nat := 32

/-- BIN_LEN (rule R8): the length of a binary string, every layout. -/
def binLen : Nat := 32

/-- PACKED_HEX_LEN (rule R8): the length of the packed-word hex an encoder writes. -/
def packedHexLen : Nat := 8

/-- FH_LEN_R (rule R8). -/
def fhLenR : Nat := 12

/-- FH_LEN_I (rule R8). -/
def fhLenI : Nat := 10

/-- FH_LEN_J (rule R8; 7 address digits by conflict resolution C2). -/
def fhLenJ : Nat := 9

/-- The declared width of each field (rule R8; a name that several layouts share has one width). -/
def width : FieldName → Nat
  | .opcode => 6
  | .rs => 5
  | .rt => 5
  | .rd => 5
  | .shamt => 5
  | .funct => 6
  | .immediate => 16
  | .address => 26

end Config

end Sys2Proof
end

