-- ==== Sys2Proof/Syntax.lean ====
section
/-! DEFINITION. The calls the block answers. An instruction of this hardware is one call: the port
(one of the 28 operations of rule R27, one row of spec/opcode_table.json) together with the port's
whole input value. Field inputs are integers, which may be negative or too large (rules R24 to R26,
decision D2); text inputs are any text (rule R11). -/

namespace Sys2Proof

/-- The input tuple of an R encoder: six integers in field order (rule R24). -/
structure RInts where
  opcode : Int
  rs : Int
  rt : Int
  rd : Int
  shamt : Int
  funct : Int
deriving DecidableEq, Repr

/-- The input tuple of an I encoder: four integers in field order (rule R25). -/
structure IInts where
  opcode : Int
  rs : Int
  rt : Int
  immediate : Int
deriving DecidableEq, Repr

/-- The input tuple of a J encoder: two integers in field order (rule R26). -/
structure JInts where
  opcode : Int
  address : Int
deriving DecidableEq, Repr

/-- The R field tuple a decoder returns: every field in its range by its type
(rule R24, decision D17). -/
structure RFields where
  opcode : BitVec 6
  rs : BitVec 5
  rt : BitVec 5
  rd : BitVec 5
  shamt : BitVec 5
  funct : BitVec 6
deriving DecidableEq, Repr

/-- The I field tuple a decoder returns (rule R25, decision D17). -/
structure IFields where
  opcode : BitVec 6
  rs : BitVec 5
  rt : BitVec 5
  immediate : BitVec 16
deriving DecidableEq, Repr

/-- The J field tuple a decoder returns (rule R26, decision D17). -/
structure JFields where
  opcode : BitVec 6
  address : BitVec 26
deriving DecidableEq, Repr

/-- The 28 ports of rule R27, in the order of spec/opcode_table.json. The caller selects the
operation by the port it uses; no bit of a word selects it (rules R71, R73). -/
inductive Port where
  | rPack
  | rUnpack
  | rEncodeBin
  | rDecodeBin
  | rEncodePackedHex
  | rDecodePackedHex
  | rEncodeFieldHex
  | rDecodeFieldHex
  | iPack
  | iUnpack
  | iEncodeBin
  | iDecodeBin
  | iEncodePackedHex
  | iDecodePackedHex
  | iEncodeFieldHex
  | iDecodeFieldHex
  | jPack
  | jUnpack
  | jEncodeBin
  | jDecodeBin
  | jEncodePackedHex
  | jDecodePackedHex
  | jEncodeFieldHex
  | jDecodeFieldHex
  | wordToBin
  | binToWord
  | wordToHex
  | hexToWord
deriving DecidableEq, Repr

/-- One call: a port and an input value of that port's type (rule R27). -/
inductive Instr where
  | rPack (f : RInts)
  | rUnpack (w : Word)
  | rEncodeBin (f : RInts)
  | rDecodeBin (t : Text)
  | rEncodePackedHex (f : RInts)
  | rDecodePackedHex (t : Text)
  | rEncodeFieldHex (f : RInts)
  | rDecodeFieldHex (t : Text)
  | iPack (f : IInts)
  | iUnpack (w : Word)
  | iEncodeBin (f : IInts)
  | iDecodeBin (t : Text)
  | iEncodePackedHex (f : IInts)
  | iDecodePackedHex (t : Text)
  | iEncodeFieldHex (f : IInts)
  | iDecodeFieldHex (t : Text)
  | jPack (f : JInts)
  | jUnpack (w : Word)
  | jEncodeBin (f : JInts)
  | jDecodeBin (t : Text)
  | jEncodePackedHex (f : JInts)
  | jDecodePackedHex (t : Text)
  | jEncodeFieldHex (f : JInts)
  | jDecodeFieldHex (t : Text)
  | wordToBin (w : Word)
  | binToWord (t : Text)
  | wordToHex (w : Word)
  | hexToWord (t : Text)
deriving DecidableEq, Repr

/-- The port a call uses. -/
def Instr.port : Instr → Port
  | .rPack _ => .rPack
  | .rUnpack _ => .rUnpack
  | .rEncodeBin _ => .rEncodeBin
  | .rDecodeBin _ => .rDecodeBin
  | .rEncodePackedHex _ => .rEncodePackedHex
  | .rDecodePackedHex _ => .rDecodePackedHex
  | .rEncodeFieldHex _ => .rEncodeFieldHex
  | .rDecodeFieldHex _ => .rDecodeFieldHex
  | .iPack _ => .iPack
  | .iUnpack _ => .iUnpack
  | .iEncodeBin _ => .iEncodeBin
  | .iDecodeBin _ => .iDecodeBin
  | .iEncodePackedHex _ => .iEncodePackedHex
  | .iDecodePackedHex _ => .iDecodePackedHex
  | .iEncodeFieldHex _ => .iEncodeFieldHex
  | .iDecodeFieldHex _ => .iDecodeFieldHex
  | .jPack _ => .jPack
  | .jUnpack _ => .jUnpack
  | .jEncodeBin _ => .jEncodeBin
  | .jDecodeBin _ => .jDecodeBin
  | .jEncodePackedHex _ => .jEncodePackedHex
  | .jDecodePackedHex _ => .jDecodePackedHex
  | .jEncodeFieldHex _ => .jEncodeFieldHex
  | .jDecodeFieldHex _ => .jDecodeFieldHex
  | .wordToBin _ => .wordToBin
  | .binToWord _ => .binToWord
  | .wordToHex _ => .wordToHex
  | .hexToWord _ => .hexToWord

/-- A value as it stands at a port before its type is looked at: integers in field order, a number,
or text. -/
inductive Input where
  | fields (vs : List Int)
  | word (n : Nat)
  | text (t : Text)
deriving DecidableEq, Repr

/-- What a caller presents to the block: a port and the value put on it. -/
structure Call where
  port : Port
  input : Input
deriving DecidableEq, Repr

end Sys2Proof
end

