-- ==== Sys2Proof/Machine/Primitives.lean ====
section
/-! DEFINITION. The primitives every operation is written with: the range test (rule R100), the
alphabets (rule R14), rendering and reading of binary and hex digits (rules R102 to R106), the
field-hex digit count (rule R113), slices (rule R11), and the placing and extracting of fields
(rules R68, R69). None of them can fail; the checks that can are in Operands.lean. -/

namespace Sys2Proof.Machine

/-- `in_range(v, n)`: `0 ≤ v < 2^n` (rule R100). -/
def inRange (v : Int) (n : Nat) : Bool := decide (0 ≤ v) && decide (v < 2 ^ n)

/-- The alphabets decoders check against (rule R14). -/
inductive Alphabet where
  | bin
  | hex
deriving DecidableEq, Repr

/-- `BIN` (rule R14). -/
def isBin (c : Char) : Bool := c == '0' || c == '1'

/-- `HEX_UPPER`, the alphabet every hex encoder writes (rule R14). -/
def isHexUpper (c : Char) : Bool :=
  (decide ('0' ≤ c) && decide (c ≤ '9')) || (decide ('A' ≤ c) && decide (c ≤ 'F'))

/-- `HEX`, the 22 characters every hex decoder reads (rule R14, decision D3). -/
def isHex (c : Char) : Bool :=
  isHexUpper c || (decide ('a' ≤ c) && decide (c ≤ 'f'))

/-- Membership of a character in an alphabet. -/
def inAlphabet : Alphabet → Char → Bool
  | .bin, c => isBin c
  | .hex, c => isHex c

/-- `s[a:b)`: characters `a` to `b - 1` (rule R11). -/
def slice (t : Text) (a b : Nat) : Text := (t.drop a).take (b - a)

/-- `bin_render(v, n)`: `n` characters, character `k` is bit `n - 1 - k` of `v` (rule R102). -/
def binRender (v n : Nat) : Text :=
  (List.range n).map fun k => if v.testBit (n - 1 - k) then '1' else '0'

/-- `bin_value(s)`: the text read base 2, first character most significant (rule R103). -/
def binValue : Text → Nat
  | [] => 0
  | c :: cs => (if c = '1' then 1 else 0) * 2 ^ cs.length + binValue cs

/-- The `HEX_UPPER` digit of a number below 16 (rule R105). -/
def hexDigit (d : Nat) : Char := if d < 10 then Char.ofNat (48 + d) else Char.ofNat (55 + d)

/-- `hex_digit_value(c)` for a character of `HEX` (rule R104). Every use comes after the alphabet
check, so what it gives for other characters is never looked at (log entry 7). -/
def hexDigitValue (c : Char) : Nat :=
  if '0' ≤ c ∧ c ≤ '9' then c.toNat - 48
  else if 'A' ≤ c ∧ c ≤ 'F' then c.toNat - 55
  else c.toNat - 87

/-- `hex_render(v, n)`: `n` upper-case digits, character `k` the digit of
`floor(v / 16^(n - 1 - k)) mod 16` (rule R105). -/
def hexRender (v n : Nat) : Text :=
  (List.range n).map fun k => hexDigit (v / 16 ^ (n - 1 - k) % 16)

/-- `hex_value(s)`: the text read base 16, unbounded (rule R106). -/
def hexValue : Text → Nat
  | [] => 0
  | c :: cs => hexDigitValue c * 16 ^ cs.length + hexValue cs

/-- `fh_digits(n)`: 2 digits up to 8 bits, 4 up to 16, 7 for width 26 (rule R113, conflict C2). -/
def fhDigits (n : Nat) : Nat := if n ≤ 8 then 2 else if n ≤ 16 then 4 else 7

/-- `fh_render(v, n) = hex_render(v, fh_digits(n))` (rule R113). -/
def fhRender (v n : Nat) : Text := hexRender v (fhDigits n)

/-- The word of an R field tuple: each field shifted to its low bit, then OR (rules R61, R68, R130). -/
def rWord (F : RFields) : Word :=
  (F.opcode.setWidth 32 <<< 26) ||| (F.rs.setWidth 32 <<< 21) ||| (F.rt.setWidth 32 <<< 16) |||
    (F.rd.setWidth 32 <<< 11) ||| (F.shamt.setWidth 32 <<< 6) ||| F.funct.setWidth 32

/-- The R reading of a word: shift right and mask (rules R61, R69, R131). -/
def rFields (w : Word) : RFields where
  opcode := ((w >>> 26) &&& 0x3F#32).setWidth 6
  rs := ((w >>> 21) &&& 0x1F#32).setWidth 5
  rt := ((w >>> 16) &&& 0x1F#32).setWidth 5
  rd := ((w >>> 11) &&& 0x1F#32).setWidth 5
  shamt := ((w >>> 6) &&& 0x1F#32).setWidth 5
  funct := (w &&& 0x3F#32).setWidth 6

/-- The word of an I field tuple (rules R62, R68, R150). -/
def iWord (F : IFields) : Word :=
  (F.opcode.setWidth 32 <<< 26) ||| (F.rs.setWidth 32 <<< 21) ||| (F.rt.setWidth 32 <<< 16) |||
    F.immediate.setWidth 32

/-- The I reading of a word (rules R62, R69, R151). -/
def iFields (w : Word) : IFields where
  opcode := ((w >>> 26) &&& 0x3F#32).setWidth 6
  rs := ((w >>> 21) &&& 0x1F#32).setWidth 5
  rt := ((w >>> 16) &&& 0x1F#32).setWidth 5
  immediate := (w &&& 0xFFFF#32).setWidth 16

/-- The word of a J field tuple (rules R63, R68, R170). -/
def jWord (F : JFields) : Word :=
  (F.opcode.setWidth 32 <<< 26) ||| F.address.setWidth 32

/-- The J reading of a word (rules R63, R69, R171). -/
def jFields (w : Word) : JFields where
  opcode := ((w >>> 26) &&& 0x3F#32).setWidth 6
  address := (w &&& 0x3FFFFFF#32).setWidth 26

/-- An in-range R tuple of integers as fields of their widths. Out-of-range integers never reach it:
`rCheck` rejects them first (rule R101). -/
def rOfInts (f : RInts) : RFields where
  opcode := BitVec.ofInt 6 f.opcode
  rs := BitVec.ofInt 5 f.rs
  rt := BitVec.ofInt 5 f.rt
  rd := BitVec.ofInt 5 f.rd
  shamt := BitVec.ofInt 5 f.shamt
  funct := BitVec.ofInt 6 f.funct

/-- An in-range I tuple of integers as fields of their widths. -/
def iOfInts (f : IInts) : IFields where
  opcode := BitVec.ofInt 6 f.opcode
  rs := BitVec.ofInt 5 f.rs
  rt := BitVec.ofInt 5 f.rt
  immediate := BitVec.ofInt 16 f.immediate

/-- An in-range J tuple of integers as fields of their widths. -/
def jOfInts (f : JInts) : JFields where
  opcode := BitVec.ofInt 6 f.opcode
  address := BitVec.ofInt 26 f.address

/-- An R field tuple as the integers an encoder takes: unsigned (rule R70). -/
def rToInts (F : RFields) : RInts where
  opcode := F.opcode.toNat
  rs := F.rs.toNat
  rt := F.rt.toNat
  rd := F.rd.toNat
  shamt := F.shamt.toNat
  funct := F.funct.toNat

/-- An I field tuple as the integers an encoder takes: unsigned (rule R70). -/
def iToInts (F : IFields) : IInts where
  opcode := F.opcode.toNat
  rs := F.rs.toNat
  rt := F.rt.toNat
  immediate := F.immediate.toNat

/-- A J field tuple as the integers an encoder takes: unsigned (rule R70). -/
def jToInts (F : JFields) : JInts where
  opcode := F.opcode.toNat
  address := F.address.toNat

/-- The R binary string, field by field in field order (rules R61, R132). -/
def rBinText (F : RFields) : Text :=
  binRender F.opcode.toNat 6 ++ binRender F.rs.toNat 5 ++ binRender F.rt.toNat 5 ++
    binRender F.rd.toNat 5 ++ binRender F.shamt.toNat 5 ++ binRender F.funct.toNat 6

/-- The I binary string (rules R62, R152). -/
def iBinText (F : IFields) : Text :=
  binRender F.opcode.toNat 6 ++ binRender F.rs.toNat 5 ++ binRender F.rt.toNat 5 ++
    binRender F.immediate.toNat 16

/-- The J binary string (rules R63, R172). -/
def jBinText (F : JFields) : Text :=
  binRender F.opcode.toNat 6 ++ binRender F.address.toNat 26

/-- The R field-hex text: 2+2+2+2+2+2 digits (rules R61, R66, R136). -/
def rFieldHexText (F : RFields) : Text :=
  fhRender F.opcode.toNat 6 ++ fhRender F.rs.toNat 5 ++ fhRender F.rt.toNat 5 ++
    fhRender F.rd.toNat 5 ++ fhRender F.shamt.toNat 5 ++ fhRender F.funct.toNat 6

/-- The I field-hex text: 2+2+2+4 digits (rules R62, R66, R156). -/
def iFieldHexText (F : IFields) : Text :=
  fhRender F.opcode.toNat 6 ++ fhRender F.rs.toNat 5 ++ fhRender F.rt.toNat 5 ++
    fhRender F.immediate.toNat 16

/-- The J field-hex text: 2+7 digits (rules R63, R66, R176). -/
def jFieldHexText (F : JFields) : Text :=
  fhRender F.opcode.toNat 6 ++ fhRender F.address.toNat 26

end Sys2Proof.Machine
end

