-- ==== Sys2Proof/WellFormed.lean ====
section
/-! DEFINITION. Which calls carry a valid input: every field in its range (the glossary's valid field
tuple, rule R16), or text that is legal for the decoder (rule R75, the grammar of rule R77). The block
accepts the other calls too and answers each with an error; this is the test that tells the two
apart. `Instr.canonical` is the further test that a hex text is the very text an encoder writes, so
that the 32-bit word of the call's opcode-table row determines the call. -/

namespace Sys2Proof

/-- Every field of the R tuple is in range (rules R24, R100). -/
def RInts.valid (f : RInts) : Bool :=
  Machine.inRange f.opcode 6 && Machine.inRange f.rs 5 && Machine.inRange f.rt 5 &&
    Machine.inRange f.rd 5 && Machine.inRange f.shamt 5 && Machine.inRange f.funct 6

/-- Every field of the I tuple is in range (rules R25, R100). -/
def IInts.valid (f : IInts) : Bool :=
  Machine.inRange f.opcode 6 && Machine.inRange f.rs 5 && Machine.inRange f.rt 5 &&
    Machine.inRange f.immediate 16

/-- Every field of the J tuple is in range (rules R26, R100). -/
def JInts.valid (f : JInts) : Bool :=
  Machine.inRange f.opcode 6 && Machine.inRange f.address 26

/-- A legal binary string: exactly 32 characters, each '0' or '1' (rules R64, R75). -/
def binTextValid (t : Text) : Bool := t.length == 32 && t.all Machine.isBin

/-- A legal packed-hex input: not empty, hex digits only, value below 2^32 (rules R65, R112). -/
def packedHexValid (t : Text) : Bool :=
  !t.isEmpty && t.all Machine.isHex && decide (Machine.hexValue t < 2 ^ 32)

/-- The digit group at characters `a` to `b - 1` fits a field of width `n` (rule R114). -/
def groupFits (t : Text) (a b n : Nat) : Bool :=
  decide (Machine.hexValue (Machine.slice t a b) < 2 ^ n)

/-- A legal R field-hex text: 12 hex digits, every group within its field (rules R75, R137). -/
def rFieldHexValid (t : Text) : Bool :=
  t.length == 12 && t.all Machine.isHex && groupFits t 0 2 6 && groupFits t 2 4 5 &&
    groupFits t 4 6 5 && groupFits t 6 8 5 && groupFits t 8 10 5 && groupFits t 10 12 6

/-- A legal I field-hex text: 10 hex digits, every group within its field (rules R75, R157). -/
def iFieldHexValid (t : Text) : Bool :=
  t.length == 10 && t.all Machine.isHex && groupFits t 0 2 6 && groupFits t 2 4 5 &&
    groupFits t 4 6 5 && groupFits t 6 10 16

/-- A legal J field-hex text: 9 hex digits, both groups within their fields (rules R75, R177). -/
def jFieldHexValid (t : Text) : Bool :=
  t.length == 9 && t.all Machine.isHex && groupFits t 0 2 6 && groupFits t 2 9 26

/-- The call's input is valid: the block answers it with `Ok` (rules R16, R72, R75). -/
def Instr.wellFormed : Instr → Bool
  | .rPack f => f.valid
  | .rUnpack _ => true
  | .rEncodeBin f => f.valid
  | .rDecodeBin t => binTextValid t
  | .rEncodePackedHex f => f.valid
  | .rDecodePackedHex t => packedHexValid t
  | .rEncodeFieldHex f => f.valid
  | .rDecodeFieldHex t => rFieldHexValid t
  | .iPack f => f.valid
  | .iUnpack _ => true
  | .iEncodeBin f => f.valid
  | .iDecodeBin t => binTextValid t
  | .iEncodePackedHex f => f.valid
  | .iDecodePackedHex t => packedHexValid t
  | .iEncodeFieldHex f => f.valid
  | .iDecodeFieldHex t => iFieldHexValid t
  | .jPack f => f.valid
  | .jUnpack _ => true
  | .jEncodeBin f => f.valid
  | .jDecodeBin t => binTextValid t
  | .jEncodePackedHex f => f.valid
  | .jDecodePackedHex t => packedHexValid t
  | .jEncodeFieldHex f => f.valid
  | .jDecodeFieldHex t => jFieldHexValid t
  | .wordToBin _ => true
  | .binToWord t => binTextValid t
  | .wordToHex _ => true
  | .hexToWord t => packedHexValid t

/-- The text is one an encoder could have written: upper-case digits only (rules R65, R66). -/
def upperOnly (t : Text) : Bool := t.all Machine.isHexUpper

/-- Packed hex as an encoder writes it: exactly 8 upper-case digits (rule R65). -/
def packedHexCanonical (t : Text) : Bool := t.length == 8 && upperOnly t

/-- The call's text, if it has one, is the text the matching encoder writes. Binary strings are
unique (rule R115), so only hex texts are tested; a legal text that fails this test (lower case,
padding, leading zeros stripped) is decoded all the same. -/
def Instr.canonical : Instr → Bool
  | .rPack _ => true
  | .rUnpack _ => true
  | .rEncodeBin _ => true
  | .rDecodeBin _ => true
  | .rEncodePackedHex _ => true
  | .rDecodePackedHex t => packedHexCanonical t
  | .rEncodeFieldHex _ => true
  | .rDecodeFieldHex t => upperOnly t
  | .iPack _ => true
  | .iUnpack _ => true
  | .iEncodeBin _ => true
  | .iDecodeBin _ => true
  | .iEncodePackedHex _ => true
  | .iDecodePackedHex t => packedHexCanonical t
  | .iEncodeFieldHex _ => true
  | .iDecodeFieldHex t => upperOnly t
  | .jPack _ => true
  | .jUnpack _ => true
  | .jEncodeBin _ => true
  | .jDecodeBin _ => true
  | .jEncodePackedHex _ => true
  | .jDecodePackedHex t => packedHexCanonical t
  | .jEncodeFieldHex _ => true
  | .jDecodeFieldHex t => upperOnly t
  | .wordToBin _ => true
  | .binToWord _ => true
  | .wordToHex _ => true
  | .hexToWord t => packedHexCanonical t

end Sys2Proof
end

