-- ==== Sys2Proof/Decode.lean ====
section
/-! DEFINITION. The decoder and the encoder of calls, on two levels. `decode` reads what a caller
presents (a port and a value) as a call of that port's type, rejecting by name a value the port does
not take (rule R27). `callOfWord` reads a 32-bit word laid out as the port's row of
spec/opcode_table.json lays it out (rules R61 to R65) as the call it stands for. Because no bit of
the word selects a port (rule R71), a numbered call is the word in bits 31..0 and the port's number
in the bits above, which the table does not give; the numbering is the model's (log entry 2). -/

namespace Sys2Proof

open Sys2Proof.Machine

/-- Why a value presented at a port is no input of that port. -/
inductive Mismatch where
  /-- The port takes a value of another kind (rule R27). -/
  | wrongKind
  /-- The port's layout has another number of fields (rules R24 to R26). -/
  | wrongFieldCount (expected actual : Nat)
  /-- The number is 2^32 or more, so it is no `Word32` (rule R10). -/
  | notAWord (n : Nat)
deriving DecidableEq, Repr

/-- An R tuple: six integers in field order (rule R24). -/
def asRInts : Input → Except Mismatch RInts
  | .fields [opcode, rs, rt, rd, shamt, funct] => .ok ⟨opcode, rs, rt, rd, shamt, funct⟩
  | .fields vs => .error (.wrongFieldCount 6 vs.length)
  | _ => .error .wrongKind

/-- An I tuple: four integers in field order (rule R25). -/
def asIInts : Input → Except Mismatch IInts
  | .fields [opcode, rs, rt, immediate] => .ok ⟨opcode, rs, rt, immediate⟩
  | .fields vs => .error (.wrongFieldCount 4 vs.length)
  | _ => .error .wrongKind

/-- A J tuple: two integers in field order (rule R26). -/
def asJInts : Input → Except Mismatch JInts
  | .fields [opcode, address] => .ok ⟨opcode, address⟩
  | .fields vs => .error (.wrongFieldCount 2 vs.length)
  | _ => .error .wrongKind

/-- A `Word32`: a number below 2^32 (rule R10). -/
def asWord : Input → Except Mismatch Word
  | .word n => if n < 2 ^ 32 then .ok (BitVec.ofNat 32 n) else .error (.notAWord n)
  | _ => .error .wrongKind

/-- Any text (rule R11). -/
def asText : Input → Except Mismatch Text
  | .text t => .ok t
  | _ => .error .wrongKind

/-- The call a caller presents, or by name why it is none. The port alone selects the operation and
the layout; no field is looked at (rules R71, R73). -/
def decode (c : Call) : Except Mismatch Instr :=
  match c.port with
  | .rPack => (asRInts c.input).map .rPack
  | .rUnpack => (asWord c.input).map .rUnpack
  | .rEncodeBin => (asRInts c.input).map .rEncodeBin
  | .rDecodeBin => (asText c.input).map .rDecodeBin
  | .rEncodePackedHex => (asRInts c.input).map .rEncodePackedHex
  | .rDecodePackedHex => (asText c.input).map .rDecodePackedHex
  | .rEncodeFieldHex => (asRInts c.input).map .rEncodeFieldHex
  | .rDecodeFieldHex => (asText c.input).map .rDecodeFieldHex
  | .iPack => (asIInts c.input).map .iPack
  | .iUnpack => (asWord c.input).map .iUnpack
  | .iEncodeBin => (asIInts c.input).map .iEncodeBin
  | .iDecodeBin => (asText c.input).map .iDecodeBin
  | .iEncodePackedHex => (asIInts c.input).map .iEncodePackedHex
  | .iDecodePackedHex => (asText c.input).map .iDecodePackedHex
  | .iEncodeFieldHex => (asIInts c.input).map .iEncodeFieldHex
  | .iDecodeFieldHex => (asText c.input).map .iDecodeFieldHex
  | .jPack => (asJInts c.input).map .jPack
  | .jUnpack => (asWord c.input).map .jUnpack
  | .jEncodeBin => (asJInts c.input).map .jEncodeBin
  | .jDecodeBin => (asText c.input).map .jDecodeBin
  | .jEncodePackedHex => (asJInts c.input).map .jEncodePackedHex
  | .jDecodePackedHex => (asText c.input).map .jDecodePackedHex
  | .jEncodeFieldHex => (asJInts c.input).map .jEncodeFieldHex
  | .jDecodeFieldHex => (asText c.input).map .jDecodeFieldHex
  | .wordToBin => (asWord c.input).map .wordToBin
  | .binToWord => (asText c.input).map .binToWord
  | .wordToHex => (asWord c.input).map .wordToHex
  | .hexToWord => (asText c.input).map .hexToWord

/-- The fields of an R tuple as a port carries them. -/
def ofRInts (f : RInts) : Input := .fields [f.opcode, f.rs, f.rt, f.rd, f.shamt, f.funct]

/-- The fields of an I tuple as a port carries them. -/
def ofIInts (f : IInts) : Input := .fields [f.opcode, f.rs, f.rt, f.immediate]

/-- The fields of a J tuple as a port carries them. -/
def ofJInts (f : JInts) : Input := .fields [f.opcode, f.address]

/-- What a caller presents to make this call: the inverse of `decode`. -/
def encode : Instr → Call
  | .rPack f => ⟨.rPack, ofRInts f⟩
  | .rUnpack w => ⟨.rUnpack, .word w.toNat⟩
  | .rEncodeBin f => ⟨.rEncodeBin, ofRInts f⟩
  | .rDecodeBin t => ⟨.rDecodeBin, .text t⟩
  | .rEncodePackedHex f => ⟨.rEncodePackedHex, ofRInts f⟩
  | .rDecodePackedHex t => ⟨.rDecodePackedHex, .text t⟩
  | .rEncodeFieldHex f => ⟨.rEncodeFieldHex, ofRInts f⟩
  | .rDecodeFieldHex t => ⟨.rDecodeFieldHex, .text t⟩
  | .iPack f => ⟨.iPack, ofIInts f⟩
  | .iUnpack w => ⟨.iUnpack, .word w.toNat⟩
  | .iEncodeBin f => ⟨.iEncodeBin, ofIInts f⟩
  | .iDecodeBin t => ⟨.iDecodeBin, .text t⟩
  | .iEncodePackedHex f => ⟨.iEncodePackedHex, ofIInts f⟩
  | .iDecodePackedHex t => ⟨.iDecodePackedHex, .text t⟩
  | .iEncodeFieldHex f => ⟨.iEncodeFieldHex, ofIInts f⟩
  | .iDecodeFieldHex t => ⟨.iDecodeFieldHex, .text t⟩
  | .jPack f => ⟨.jPack, ofJInts f⟩
  | .jUnpack w => ⟨.jUnpack, .word w.toNat⟩
  | .jEncodeBin f => ⟨.jEncodeBin, ofJInts f⟩
  | .jDecodeBin t => ⟨.jDecodeBin, .text t⟩
  | .jEncodePackedHex f => ⟨.jEncodePackedHex, ofJInts f⟩
  | .jDecodePackedHex t => ⟨.jDecodePackedHex, .text t⟩
  | .jEncodeFieldHex f => ⟨.jEncodeFieldHex, ofJInts f⟩
  | .jDecodeFieldHex t => ⟨.jDecodeFieldHex, .text t⟩
  | .wordToBin w => ⟨.wordToBin, .word w.toNat⟩
  | .binToWord t => ⟨.binToWord, .text t⟩
  | .wordToHex w => ⟨.wordToHex, .word w.toNat⟩
  | .hexToWord t => ⟨.hexToWord, .text t⟩

/-- A port's number: its row's place in spec/opcode_table.json, from 0 (log entry 2). -/
def Port.number : Port → Nat
  | .rPack => 0
  | .rUnpack => 1
  | .rEncodeBin => 2
  | .rDecodeBin => 3
  | .rEncodePackedHex => 4
  | .rDecodePackedHex => 5
  | .rEncodeFieldHex => 6
  | .rDecodeFieldHex => 7
  | .iPack => 8
  | .iUnpack => 9
  | .iEncodeBin => 10
  | .iDecodeBin => 11
  | .iEncodePackedHex => 12
  | .iDecodePackedHex => 13
  | .iEncodeFieldHex => 14
  | .iDecodeFieldHex => 15
  | .jPack => 16
  | .jUnpack => 17
  | .jEncodeBin => 18
  | .jDecodeBin => 19
  | .jEncodePackedHex => 20
  | .jDecodePackedHex => 21
  | .jEncodeFieldHex => 22
  | .jDecodeFieldHex => 23
  | .wordToBin => 24
  | .binToWord => 25
  | .wordToHex => 26
  | .hexToWord => 27

/-- The port of a number, none above 27. -/
def Port.ofNumber : Nat → Option Port
  | 0 => some .rPack
  | 1 => some .rUnpack
  | 2 => some .rEncodeBin
  | 3 => some .rDecodeBin
  | 4 => some .rEncodePackedHex
  | 5 => some .rDecodePackedHex
  | 6 => some .rEncodeFieldHex
  | 7 => some .rDecodeFieldHex
  | 8 => some .iPack
  | 9 => some .iUnpack
  | 10 => some .iEncodeBin
  | 11 => some .iDecodeBin
  | 12 => some .iEncodePackedHex
  | 13 => some .iDecodePackedHex
  | 14 => some .iEncodeFieldHex
  | 15 => some .iDecodeFieldHex
  | 16 => some .jPack
  | 17 => some .jUnpack
  | 18 => some .jEncodeBin
  | 19 => some .jDecodeBin
  | 20 => some .jEncodePackedHex
  | 21 => some .jDecodePackedHex
  | 22 => some .jEncodeFieldHex
  | 23 => some .jDecodeFieldHex
  | 24 => some .wordToBin
  | 25 => some .binToWord
  | 26 => some .wordToHex
  | 27 => some .hexToWord
  | _ => none

/-- The call a 32-bit word stands for at a port, the word read as the port's opcode-table row lays it
out: its fields (rules R61 to R63), the word itself, or the text of the word in the port's textual
form (rules R64 to R66). -/
def callOfWord (p : Port) (w : Word) : Call :=
  match p with
  | .rPack => ⟨.rPack, ofRInts (rToInts (rFields w))⟩
  | .rUnpack => ⟨.rUnpack, .word w.toNat⟩
  | .rEncodeBin => ⟨.rEncodeBin, ofRInts (rToInts (rFields w))⟩
  | .rDecodeBin => ⟨.rDecodeBin, .text (binRender w.toNat 32)⟩
  | .rEncodePackedHex => ⟨.rEncodePackedHex, ofRInts (rToInts (rFields w))⟩
  | .rDecodePackedHex => ⟨.rDecodePackedHex, .text (hexRender w.toNat 8)⟩
  | .rEncodeFieldHex => ⟨.rEncodeFieldHex, ofRInts (rToInts (rFields w))⟩
  | .rDecodeFieldHex => ⟨.rDecodeFieldHex, .text (rFieldHexText (rFields w))⟩
  | .iPack => ⟨.iPack, ofIInts (iToInts (iFields w))⟩
  | .iUnpack => ⟨.iUnpack, .word w.toNat⟩
  | .iEncodeBin => ⟨.iEncodeBin, ofIInts (iToInts (iFields w))⟩
  | .iDecodeBin => ⟨.iDecodeBin, .text (binRender w.toNat 32)⟩
  | .iEncodePackedHex => ⟨.iEncodePackedHex, ofIInts (iToInts (iFields w))⟩
  | .iDecodePackedHex => ⟨.iDecodePackedHex, .text (hexRender w.toNat 8)⟩
  | .iEncodeFieldHex => ⟨.iEncodeFieldHex, ofIInts (iToInts (iFields w))⟩
  | .iDecodeFieldHex => ⟨.iDecodeFieldHex, .text (iFieldHexText (iFields w))⟩
  | .jPack => ⟨.jPack, ofJInts (jToInts (jFields w))⟩
  | .jUnpack => ⟨.jUnpack, .word w.toNat⟩
  | .jEncodeBin => ⟨.jEncodeBin, ofJInts (jToInts (jFields w))⟩
  | .jDecodeBin => ⟨.jDecodeBin, .text (binRender w.toNat 32)⟩
  | .jEncodePackedHex => ⟨.jEncodePackedHex, ofJInts (jToInts (jFields w))⟩
  | .jDecodePackedHex => ⟨.jDecodePackedHex, .text (hexRender w.toNat 8)⟩
  | .jEncodeFieldHex => ⟨.jEncodeFieldHex, ofJInts (jToInts (jFields w))⟩
  | .jDecodeFieldHex => ⟨.jDecodeFieldHex, .text (jFieldHexText (jFields w))⟩
  | .wordToBin => ⟨.wordToBin, .word w.toNat⟩
  | .binToWord => ⟨.binToWord, .text (binRender w.toNat 32)⟩
  | .wordToHex => ⟨.wordToHex, .word w.toNat⟩
  | .hexToWord => ⟨.hexToWord, .text (hexRender w.toNat 8)⟩

/-- The fields that an R field-hex text writes, group by group (rule R61). -/
def rOfFieldHex (t : Text) : RFields where
  opcode := BitVec.ofNat 6 (hexValue (slice t 0 2))
  rs := BitVec.ofNat 5 (hexValue (slice t 2 4))
  rt := BitVec.ofNat 5 (hexValue (slice t 4 6))
  rd := BitVec.ofNat 5 (hexValue (slice t 6 8))
  shamt := BitVec.ofNat 5 (hexValue (slice t 8 10))
  funct := BitVec.ofNat 6 (hexValue (slice t 10 12))

/-- The fields that an I field-hex text writes (rule R62). -/
def iOfFieldHex (t : Text) : IFields where
  opcode := BitVec.ofNat 6 (hexValue (slice t 0 2))
  rs := BitVec.ofNat 5 (hexValue (slice t 2 4))
  rt := BitVec.ofNat 5 (hexValue (slice t 4 6))
  immediate := BitVec.ofNat 16 (hexValue (slice t 6 10))

/-- The fields that a J field-hex text writes (rule R63). -/
def jOfFieldHex (t : Text) : JFields where
  opcode := BitVec.ofNat 6 (hexValue (slice t 0 2))
  address := BitVec.ofNat 26 (hexValue (slice t 2 9))

/-- The 32-bit word of a call with a valid input, laid out as its opcode-table row lays it out. For a
call that is not well-formed there is no such word, and what this gives means nothing. -/
def wordOf : Instr → Word
  | .rPack f => rWord (rOfInts f)
  | .rUnpack w => w
  | .rEncodeBin f => rWord (rOfInts f)
  | .rDecodeBin t => BitVec.ofNat 32 (binValue t)
  | .rEncodePackedHex f => rWord (rOfInts f)
  | .rDecodePackedHex t => BitVec.ofNat 32 (hexValue t)
  | .rEncodeFieldHex f => rWord (rOfInts f)
  | .rDecodeFieldHex t => rWord (rOfFieldHex t)
  | .iPack f => iWord (iOfInts f)
  | .iUnpack w => w
  | .iEncodeBin f => iWord (iOfInts f)
  | .iDecodeBin t => BitVec.ofNat 32 (binValue t)
  | .iEncodePackedHex f => iWord (iOfInts f)
  | .iDecodePackedHex t => BitVec.ofNat 32 (hexValue t)
  | .iEncodeFieldHex f => iWord (iOfInts f)
  | .iDecodeFieldHex t => iWord (iOfFieldHex t)
  | .jPack f => jWord (jOfInts f)
  | .jUnpack w => w
  | .jEncodeBin f => jWord (jOfInts f)
  | .jDecodeBin t => BitVec.ofNat 32 (binValue t)
  | .jEncodePackedHex f => jWord (jOfInts f)
  | .jDecodePackedHex t => BitVec.ofNat 32 (hexValue t)
  | .jEncodeFieldHex f => jWord (jOfInts f)
  | .jDecodeFieldHex t => jWord (jOfFieldHex t)
  | .wordToBin w => w
  | .binToWord t => BitVec.ofNat 32 (binValue t)
  | .wordToHex w => w
  | .hexToWord t => BitVec.ofNat 32 (hexValue t)

/-- A call as one number: its word in bits 31..0, its port's number above (log entry 2). -/
def encodeNumber (i : Instr) : Nat := i.port.number * 2 ^ 32 + (wordOf i).toNat

/-- What the low `nbits` bits of a number present to the block: the word in bits 31..0 at the port
whose number stands above it; none if no port has that number. -/
def callOfTableWord (nbits w : Nat) : Option Call :=
  (Port.ofNumber (w % 2 ^ nbits / 2 ^ 32)).map fun p => callOfWord p (BitVec.ofNat 32 (w % 2 ^ nbits))

/-- The instruction the decoder reads from the low `nbits` bits of `w`, every bit above them 0. With
the 32 bits the opcode table gives each row the port's number is 0, the first row, R.pack: the word
alone selects no operation (rule R71, log entry 2). -/
def decodeTableWord (nbits w : Nat) : Option Instr :=
  (callOfTableWord nbits w).bind fun c => (decode c).toOption

end Sys2Proof
end

