-- ==== Sys2Proof/Machine/State.lean ====
section
/-! DEFINITION. The block has no state (rules R20 to R23, R28 to R32). What stands here is its
interface: the calls callers have presented and that are not yet answered, and the results the block
has returned, with the reasons a step can stop. -/

namespace Sys2Proof.Machine

/-- The length a decoder expects, as `BadLength` carries it (rule R201). -/
inductive Expected where
  | exactly (n : Nat)
  | atLeastOne
deriving DecidableEq, Repr

/-- The reason `MalformedInput` carries (rule R201). -/
inductive Reason where
  | badLength (expected : Expected) (actual : Nat)
  | badChar (index : Nat) (char : Char)
  | fieldTooWide (field : FieldName) (value width : Nat)
deriving DecidableEq, Repr

/-- The three kinds of error and their payloads (rules R200 to R202). An error is the answer to a
call, not a stop: the block takes the next call as if nothing had happened (rules R203, R205). -/
inductive Error where
  | malformedInput (reason : Reason)
  | fieldOutOfRange (field : FieldName) (value : Int) (width : Nat)
  | integerOverflow (value : Nat)
deriving DecidableEq, Repr

/-- What a call returns when it succeeds: the `Ok` output types of rule R27. -/
inductive Output where
  | word (w : Word)
  | rFields (F : RFields)
  | iFields (F : IFields)
  | jFields (F : JFields)
  | text (t : Text)
deriving DecidableEq, Repr

/-- `Ok(v)` or `Err(e)` (rule R12). -/
inductive Result where
  | ok (v : Output)
  | err (e : Error)
deriving DecidableEq, Repr

/-- The interface of the block as data (log entry 1). Neither field is a piece of state of the block:
no operation reads `results`, and a call leaves `calls` once it is taken. -/
structure State where
  /-- What callers have presented and the block has not answered, the next one first. -/
  calls : List Call
  /-- What the block has returned, the oldest first. -/
  results : List Result
deriving DecidableEq, Repr

/-- Why the machine can stop. -/
inductive Fault where
  /-- Raised by `step` when the value presented at a port is not of the port's input type, so that
  what is presented is no call of rule R27. Safe: the machine stops and answers nothing. -/
  | notAPortInput (port : Port) (why : Mismatch)
deriving DecidableEq, Repr

/-- Why an instruction can have no meaning. -/
inductive Refusal where
  /-- Raised by an arm of `exec` whose instruction is not modelled; no arm is such. Safe. -/
  | notModelled (mnemonic : String)
deriving DecidableEq, Repr

/-- After reset nothing has been presented and nothing returned; the block itself has nothing to
reset (rules R32, R230). -/
def State.reset : State where
  calls := []
  results := []

end Sys2Proof.Machine
end

