-- ==== Sys2Proof/Machine/Flags.lean ====
section
/-! DEFINITION. The block has no flags and no condition codes, and an error sets no sticky bit (rule
R29). What a caller can test is the kind of a result, with the numeric code of each error kind. -/

namespace Sys2Proof.Machine

/-- The three error kinds (rule R200). -/
inductive ErrorKind where
  | malformedInput
  | fieldOutOfRange
  | integerOverflow
deriving DecidableEq, Repr

/-- The numeric code of an error kind (rule R200; the numbers are the spec's own, decision D9). -/
def errorCode : ErrorKind → Nat
  | .malformedInput => 1
  | .fieldOutOfRange => 2
  | .integerOverflow => 3

/-- The kind of an error. -/
def kindOf : Error → ErrorKind
  | .malformedInput _ => .malformedInput
  | .fieldOutOfRange _ _ _ => .fieldOutOfRange
  | .integerOverflow _ => .integerOverflow

/-- The result is an `Ok`. -/
def isOk : Result → Bool
  | .ok _ => true
  | .err _ => false

end Sys2Proof.Machine
end

