-- ==== Sys2Proof/Machine/Ops.lean ====
section
/-! DEFINITION. The operations over the interface: taking the next call, returning a value, and
raising an error. -/

namespace Sys2Proof.Machine

/-- Taking the call presented first, with the state it leaves. -/
def takeCall (s : State) : Option (Call × State) :=
  match s.calls with
  | [] => none
  | c :: rest => some (c, { s with calls := rest })

/-- Returning `Ok(v)`: the result and nothing else (rule R45). -/
def returnOk (v : Output) (s : State) : State := { s with results := s.results ++ [.ok v] }

/-- Raising an error: the call returns `Err(e)` and nothing else. Nothing is saved, no vector is
taken and no mode changes (rule R203), so there is nothing to return from (rule R205). -/
def raiseError (e : Error) (s : State) : State := { s with results := s.results ++ [.err e] }

/-- The end of a call: its value or the one error it raised (rules R12, R204). -/
def respond (r : Except Error Output) (s : State) : Host.Outcome State Fault Refusal :=
  match r with
  | .ok v => .next (returnOk v s)
  | .error e => .next (raiseError e s)

/-- Presenting a call to the block ahead of any other. -/
def present (c : Call) (s : State) : State := { s with calls := c :: s.calls }

end Sys2Proof.Machine
end

