-- ==== Sys2Proof/Machine/Operands.lean ====
section
/-! DEFINITION. The checks on a call's input, each of which raises one error or does nothing: field
ranges (rule R101), text length (rule R107), alphabet (rule R108), field-hex groups (rule R114), and
the check sequences of the three layouts. Statements run in written order and the first raise decides
(rules R12, R204). -/

namespace Sys2Proof.Machine

/-- `check_field(name, v, n)`: rejects, never masks (rule R101). -/
def checkField (name : FieldName) (v : Int) (n : Nat) : Except Error Unit :=
  if inRange v n then .ok () else .error (.fieldOutOfRange name v n)

/-- `check_length(s, n)` (rule R107). -/
def checkLength (t : Text) (n : Nat) : Except Error Unit :=
  if t.length = n then .ok () else .error (.malformedInput (.badLength (.exactly n) t.length))

/-- `check_alphabet` from index `k` on. -/
def checkAlphabetFrom (A : Alphabet) : Nat → Text → Except Error Unit
  | _, [] => .ok ()
  | k, c :: cs =>
    if inAlphabet A c then checkAlphabetFrom A (k + 1) cs
    else .error (.malformedInput (.badChar k c))

/-- `check_alphabet(s, A)`: the lowest bad index is the one reported (rule R108). -/
def checkAlphabet (t : Text) (A : Alphabet) : Except Error Unit := checkAlphabetFrom A 0 t

/-- `fh_field(g, name, n)`: the value of a digit group, or `FieldTooWide` (rule R114). -/
def fhField (g : Text) (name : FieldName) (n : Nat) : Except Error (BitVec n) :=
  if 2 ^ n ≤ hexValue g then
    .error (.malformedInput (.fieldTooWide name (hexValue g) n))
  else .ok (BitVec.ofNat n (hexValue g))

/-- `R.check(F)`, which leaves the tuple as fields of their widths (file 41's shared check). -/
def rCheck (f : RInts) : Except Error RFields := do
  checkField .opcode f.opcode 6
  checkField .rs f.rs 5
  checkField .rt f.rt 5
  checkField .rd f.rd 5
  checkField .shamt f.shamt 5
  checkField .funct f.funct 6
  return rOfInts f

/-- `I.check(F)` (file 42's shared check). -/
def iCheck (f : IInts) : Except Error IFields := do
  checkField .opcode f.opcode 6
  checkField .rs f.rs 5
  checkField .rt f.rt 5
  checkField .immediate f.immediate 16
  return iOfInts f

/-- `J.check(F)` (file 43's shared check). -/
def jCheck (f : JInts) : Except Error JFields := do
  checkField .opcode f.opcode 6
  checkField .address f.address 26
  return jOfInts f

end Sys2Proof.Machine
end

