-- ==== Sys2Proof/Machine/WordSerializers.lean ====
section
/-! DEFINITION. The four word-level serializer ports (rules R109 to R112). -/

namespace Sys2Proof.Machine

/-- `word_to_bin` (rule R109). -/
def wordToBin (w : Word) : Text := binRender w.toNat 32

/-- `bin_to_word` (rule R110). -/
def binToWord (t : Text) : Except Error Word := do
  checkLength t Config.binLen
  checkAlphabet t .bin
  return BitVec.ofNat 32 (binValue t)

/-- `word_to_hex` (rule R111). -/
def wordToHex (w : Word) : Text := hexRender w.toNat Config.packedHexLen

/-- `hex_to_word` (rule R112): any length from 1 up. -/
def hexToWord (t : Text) : Except Error Word := do
  if t.length = 0 then .error (.malformedInput (.badLength .atLeastOne 0))
  checkAlphabet t .hex
  if 2 ^ 32 ≤ hexValue t then .error (.integerOverflow (hexValue t))
  return BitVec.ofNat 32 (hexValue t)

/-- The port `word_to_bin`. -/
def execWordToBin (w : Word) (s : State) : Host.Outcome State Fault Refusal :=
  respond (.ok (.text (wordToBin w))) s

/-- The port `bin_to_word`. -/
def execBinToWord (t : Text) (s : State) : Host.Outcome State Fault Refusal :=
  respond ((binToWord t).map .word) s

/-- The port `word_to_hex`. -/
def execWordToHex (w : Word) (s : State) : Host.Outcome State Fault Refusal :=
  respond (.ok (.text (wordToHex w))) s

/-- The port `hex_to_word`. -/
def execHexToWord (t : Text) (s : State) : Host.Outcome State Fault Refusal :=
  respond ((hexToWord t).map .word) s

end Sys2Proof.Machine
end

