-- ==== Sys2Proof/Machine/ILayout.lean ====
section
/-! DEFINITION. The eight ports of the I layout (rules R150 to R157). -/

namespace Sys2Proof.Machine

/-- `I.pack` (rule R150). -/
def iPack (f : IInts) : Except Error Word := do
  let F ← iCheck f
  return iWord F

/-- `I.unpack`: every word unpacks (rules R151, R72). -/
def iUnpack (w : Word) : IFields := iFields w

/-- `I.encode_bin` (rule R152). -/
def iEncodeBin (f : IInts) : Except Error Text := do
  let F ← iCheck f
  return iBinText F

/-- `I.decode_bin` (rule R153). -/
def iDecodeBin (t : Text) : Except Error IFields := do
  checkLength t Config.binLen
  checkAlphabet t .bin
  return {
    opcode := BitVec.ofNat 6 (binValue (slice t 0 6))
    rs := BitVec.ofNat 5 (binValue (slice t 6 11))
    rt := BitVec.ofNat 5 (binValue (slice t 11 16))
    immediate := BitVec.ofNat 16 (binValue (slice t 16 32)) }

/-- `I.encode_packed_hex` (rule R154). -/
def iEncodePackedHex (f : IInts) : Except Error Text := do
  let F ← iCheck f
  return hexRender (iWord F).toNat Config.packedHexLen

/-- `I.decode_packed_hex`: the errors of `hex_to_word` pass through (rule R155). -/
def iDecodePackedHex (t : Text) : Except Error IFields := do
  let w ← hexToWord t
  return iUnpack w

/-- `I.encode_field_hex` (rule R156). -/
def iEncodeFieldHex (f : IInts) : Except Error Text := do
  let F ← iCheck f
  return iFieldHexText F

/-- `I.decode_field_hex`: the groups are read in field order (rule R157). -/
def iDecodeFieldHex (t : Text) : Except Error IFields := do
  checkLength t Config.fhLenI
  checkAlphabet t .hex
  let opcode ← fhField (slice t 0 2) .opcode 6
  let rs ← fhField (slice t 2 4) .rs 5
  let rt ← fhField (slice t 4 6) .rt 5
  let immediate ← fhField (slice t 6 10) .immediate 16
  return ⟨opcode, rs, rt, immediate⟩

/-- The port `I.pack`. -/
def execIPack (f : IInts) (s : State) : Host.Outcome State Fault Refusal :=
  respond ((iPack f).map .word) s

/-- The port `I.unpack`. -/
def execIUnpack (w : Word) (s : State) : Host.Outcome State Fault Refusal :=
  respond (.ok (.iFields (iUnpack w))) s

/-- The port `I.encode_bin`. -/
def execIEncodeBin (f : IInts) (s : State) : Host.Outcome State Fault Refusal :=
  respond ((iEncodeBin f).map .text) s

/-- The port `I.decode_bin`. -/
def execIDecodeBin (t : Text) (s : State) : Host.Outcome State Fault Refusal :=
  respond ((iDecodeBin t).map .iFields) s

/-- The port `I.encode_packed_hex`. -/
def execIEncodePackedHex (f : IInts) (s : State) : Host.Outcome State Fault Refusal :=
  respond ((iEncodePackedHex f).map .text) s

/-- The port `I.decode_packed_hex`. -/
def execIDecodePackedHex (t : Text) (s : State) : Host.Outcome State Fault Refusal :=
  respond ((iDecodePackedHex t).map .iFields) s

/-- The port `I.encode_field_hex`. -/
def execIEncodeFieldHex (f : IInts) (s : State) : Host.Outcome State Fault Refusal :=
  respond ((iEncodeFieldHex f).map .text) s

/-- The port `I.decode_field_hex`. -/
def execIDecodeFieldHex (t : Text) (s : State) : Host.Outcome State Fault Refusal :=
  respond ((iDecodeFieldHex t).map .iFields) s

end Sys2Proof.Machine
end

