-- ==== Sys2Proof/Machine/JLayout.lean ====
section
/-! DEFINITION. The eight ports of the J layout (rules R170 to R177). -/

namespace Sys2Proof.Machine

/-- `J.pack` (rule R170). -/
def jPack (f : JInts) : Except Error Word := do
  let F ← jCheck f
  return jWord F

/-- `J.unpack`: every word unpacks (rules R171, R72). -/
def jUnpack (w : Word) : JFields := jFields w

/-- `J.encode_bin` (rule R172). -/
def jEncodeBin (f : JInts) : Except Error Text := do
  let F ← jCheck f
  return jBinText F

/-- `J.decode_bin` (rule R173). -/
def jDecodeBin (t : Text) : Except Error JFields := do
  checkLength t Config.binLen
  checkAlphabet t .bin
  return {
    opcode := BitVec.ofNat 6 (binValue (slice t 0 6))
    address := BitVec.ofNat 26 (binValue (slice t 6 32)) }

/-- `J.encode_packed_hex` (rule R174). -/
def jEncodePackedHex (f : JInts) : Except Error Text := do
  let F ← jCheck f
  return hexRender (jWord F).toNat Config.packedHexLen

/-- `J.decode_packed_hex`: the errors of `hex_to_word` pass through (rule R175). -/
def jDecodePackedHex (t : Text) : Except Error JFields := do
  let w ← hexToWord t
  return jUnpack w

/-- `J.encode_field_hex` (rule R176). -/
def jEncodeFieldHex (f : JInts) : Except Error Text := do
  let F ← jCheck f
  return jFieldHexText F

/-- `J.decode_field_hex`: the groups are read in field order (rule R177). -/
def jDecodeFieldHex (t : Text) : Except Error JFields := do
  checkLength t Config.fhLenJ
  checkAlphabet t .hex
  let opcode ← fhField (slice t 0 2) .opcode 6
  let address ← fhField (slice t 2 9) .address 26
  return ⟨opcode, address⟩

/-- The port `J.pack`. -/
def execJPack (f : JInts) (s : State) : Host.Outcome State Fault Refusal :=
  respond ((jPack f).map .word) s

/-- The port `J.unpack`. -/
def execJUnpack (w : Word) (s : State) : Host.Outcome State Fault Refusal :=
  respond (.ok (.jFields (jUnpack w))) s

/-- The port `J.encode_bin`. -/
def execJEncodeBin (f : JInts) (s : State) : Host.Outcome State Fault Refusal :=
  respond ((jEncodeBin f).map .text) s

/-- The port `J.decode_bin`. -/
def execJDecodeBin (t : Text) (s : State) : Host.Outcome State Fault Refusal :=
  respond ((jDecodeBin t).map .jFields) s

/-- The port `J.encode_packed_hex`. -/
def execJEncodePackedHex (f : JInts) (s : State) : Host.Outcome State Fault Refusal :=
  respond ((jEncodePackedHex f).map .text) s

/-- The port `J.decode_packed_hex`. -/
def execJDecodePackedHex (t : Text) (s : State) : Host.Outcome State Fault Refusal :=
  respond ((jDecodePackedHex t).map .jFields) s

/-- The port `J.encode_field_hex`. -/
def execJEncodeFieldHex (f : JInts) (s : State) : Host.Outcome State Fault Refusal :=
  respond ((jEncodeFieldHex f).map .text) s

/-- The port `J.decode_field_hex`. -/
def execJDecodeFieldHex (t : Text) (s : State) : Host.Outcome State Fault Refusal :=
  respond ((jDecodeFieldHex t).map .jFields) s

end Sys2Proof.Machine
end

