-- ==== Sys2Proof/Machine/RLayout.lean ====
section
/-! DEFINITION. The eight ports of the R layout (rules R130 to R137). -/

namespace Sys2Proof.Machine

/-- `R.pack` (rule R130). -/
def rPack (f : RInts) : Except Error Word := do
  let F ← rCheck f
  return rWord F

/-- `R.unpack`: every word unpacks (rules R131, R72). -/
def rUnpack (w : Word) : RFields := rFields w

/-- `R.encode_bin` (rule R132). -/
def rEncodeBin (f : RInts) : Except Error Text := do
  let F ← rCheck f
  return rBinText F

/-- `R.decode_bin` (rule R133). -/
def rDecodeBin (t : Text) : Except Error RFields := do
  checkLength t Config.binLen
  checkAlphabet t .bin
  return {
    opcode := BitVec.ofNat 6 (binValue (slice t 0 6))
    rs := BitVec.ofNat 5 (binValue (slice t 6 11))
    rt := BitVec.ofNat 5 (binValue (slice t 11 16))
    rd := BitVec.ofNat 5 (binValue (slice t 16 21))
    shamt := BitVec.ofNat 5 (binValue (slice t 21 26))
    funct := BitVec.ofNat 6 (binValue (slice t 26 32)) }

/-- `R.encode_packed_hex` (rule R134). -/
def rEncodePackedHex (f : RInts) : Except Error Text := do
  let F ← rCheck f
  return hexRender (rWord F).toNat Config.packedHexLen

/-- `R.decode_packed_hex`: the errors of `hex_to_word` pass through (rule R135). -/
def rDecodePackedHex (t : Text) : Except Error RFields := do
  let w ← hexToWord t
  return rUnpack w

/-- `R.encode_field_hex` (rule R136). -/
def rEncodeFieldHex (f : RInts) : Except Error Text := do
  let F ← rCheck f
  return rFieldHexText F

/-- `R.decode_field_hex`: the groups are read in field order (rule R137). -/
def rDecodeFieldHex (t : Text) : Except Error RFields := do
  checkLength t Config.fhLenR
  checkAlphabet t .hex
  let opcode ← fhField (slice t 0 2) .opcode 6
  let rs ← fhField (slice t 2 4) .rs 5
  let rt ← fhField (slice t 4 6) .rt 5
  let rd ← fhField (slice t 6 8) .rd 5
  let shamt ← fhField (slice t 8 10) .shamt 5
  let funct ← fhField (slice t 10 12) .funct 6
  return ⟨opcode, rs, rt, rd, shamt, funct⟩

/-- The port `R.pack`. -/
def execRPack (f : RInts) (s : State) : Host.Outcome State Fault Refusal :=
  respond ((rPack f).map .word) s

/-- The port `R.unpack`. -/
def execRUnpack (w : Word) (s : State) : Host.Outcome State Fault Refusal :=
  respond (.ok (.rFields (rUnpack w))) s

/-- The port `R.encode_bin`. -/
def execREncodeBin (f : RInts) (s : State) : Host.Outcome State Fault Refusal :=
  respond ((rEncodeBin f).map .text) s

/-- The port `R.decode_bin`. -/
def execRDecodeBin (t : Text) (s : State) : Host.Outcome State Fault Refusal :=
  respond ((rDecodeBin t).map .rFields) s

/-- The port `R.encode_packed_hex`. -/
def execREncodePackedHex (f : RInts) (s : State) : Host.Outcome State Fault Refusal :=
  respond ((rEncodePackedHex f).map .text) s

/-- The port `R.decode_packed_hex`. -/
def execRDecodePackedHex (t : Text) (s : State) : Host.Outcome State Fault Refusal :=
  respond ((rDecodePackedHex t).map .rFields) s

/-- The port `R.encode_field_hex`. -/
def execREncodeFieldHex (f : RInts) (s : State) : Host.Outcome State Fault Refusal :=
  respond ((rEncodeFieldHex f).map .text) s

/-- The port `R.decode_field_hex`. -/
def execRDecodeFieldHex (t : Text) (s : State) : Host.Outcome State Fault Refusal :=
  respond ((rDecodeFieldHex t).map .rFields) s

end Sys2Proof.Machine
end

