-- ==== Sys2Proof/Machine/Dispatch.lean ====
section
/-! DEFINITION. The dispatch: one arm per port. -/

namespace Sys2Proof.Machine

def exec (i : Instr) (s : State) : Host.Outcome State Fault Refusal :=
  match i with
  | .rPack f => Sys2Proof.Machine.execRPack f s
  | .rUnpack w => Sys2Proof.Machine.execRUnpack w s
  | .rEncodeBin f => Sys2Proof.Machine.execREncodeBin f s
  | .rDecodeBin t => Sys2Proof.Machine.execRDecodeBin t s
  | .rEncodePackedHex f => Sys2Proof.Machine.execREncodePackedHex f s
  | .rDecodePackedHex t => Sys2Proof.Machine.execRDecodePackedHex t s
  | .rEncodeFieldHex f => Sys2Proof.Machine.execREncodeFieldHex f s
  | .rDecodeFieldHex t => Sys2Proof.Machine.execRDecodeFieldHex t s
  | .iPack f => Sys2Proof.Machine.execIPack f s
  | .iUnpack w => Sys2Proof.Machine.execIUnpack w s
  | .iEncodeBin f => Sys2Proof.Machine.execIEncodeBin f s
  | .iDecodeBin t => Sys2Proof.Machine.execIDecodeBin t s
  | .iEncodePackedHex f => Sys2Proof.Machine.execIEncodePackedHex f s
  | .iDecodePackedHex t => Sys2Proof.Machine.execIDecodePackedHex t s
  | .iEncodeFieldHex f => Sys2Proof.Machine.execIEncodeFieldHex f s
  | .iDecodeFieldHex t => Sys2Proof.Machine.execIDecodeFieldHex t s
  | .jPack f => Sys2Proof.Machine.execJPack f s
  | .jUnpack w => Sys2Proof.Machine.execJUnpack w s
  | .jEncodeBin f => Sys2Proof.Machine.execJEncodeBin f s
  | .jDecodeBin t => Sys2Proof.Machine.execJDecodeBin t s
  | .jEncodePackedHex f => Sys2Proof.Machine.execJEncodePackedHex f s
  | .jDecodePackedHex t => Sys2Proof.Machine.execJDecodePackedHex t s
  | .jEncodeFieldHex f => Sys2Proof.Machine.execJEncodeFieldHex f s
  | .jDecodeFieldHex t => Sys2Proof.Machine.execJDecodeFieldHex t s
  | .wordToBin w => Sys2Proof.Machine.execWordToBin w s
  | .binToWord t => Sys2Proof.Machine.execBinToWord t s
  | .wordToHex w => Sys2Proof.Machine.execWordToHex w s
  | .hexToWord t => Sys2Proof.Machine.execHexToWord t s

end Sys2Proof.Machine
end

