-- ==== Sys2Proof/Machine/Step.lean ====
section
/-! DEFINITION. One step: the block answers the call presented first, as one atomic transition (rules
R45, R233). -/

namespace Sys2Proof.Machine

/-- With no call presented nothing happens (rules R22, R31): the block does not advance by itself. -/
def step (s : State) : Host.Outcome State Fault Refusal :=
  match takeCall s with
  | none => .next s
  | some (c, s') =>
    match decode c with
    | .ok i => exec i s'
    | .error why => .fault (.notAPortInput c.port why)

/-- The call that the low `nbits` bits of `w` number is presented ahead of any other, so that the next
step answers it; a number that names no port presents nothing (log entries 2 and 3). -/
def State.withFetchWord (s : State) (nbits w : Nat) : State :=
  match callOfTableWord nbits w with
  | some c => present c s
  | none => s

end Sys2Proof.Machine
end

