-- ==== Sys2Proof/Safety.lean ====
section
/-! DEFINITION. What claims call safe: which results each port may give (rule R27, the "raised by"
column of rule R200), which results can stand at all (rules R201, R202 and the widths of R109, R111),
and which states never stop the machine; with the vocabulary of the claims: several steps, the
fields of a tuple and the groups of a text by name. -/

namespace Sys2Proof.Machine

/-- The inputs of each port (the "input" column of rule R27): the layout's number of integers, a
number below 2^32, or any text. -/
def mayTake : Port → Input → Bool
  | .rPack, .fields vs => vs.length == 6
  | .rUnpack, .word n => decide (n < 2 ^ 32)
  | .rEncodeBin, .fields vs => vs.length == 6
  | .rDecodeBin, .text _ => true
  | .rEncodePackedHex, .fields vs => vs.length == 6
  | .rDecodePackedHex, .text _ => true
  | .rEncodeFieldHex, .fields vs => vs.length == 6
  | .rDecodeFieldHex, .text _ => true
  | .iPack, .fields vs => vs.length == 4
  | .iUnpack, .word n => decide (n < 2 ^ 32)
  | .iEncodeBin, .fields vs => vs.length == 4
  | .iDecodeBin, .text _ => true
  | .iEncodePackedHex, .fields vs => vs.length == 4
  | .iDecodePackedHex, .text _ => true
  | .iEncodeFieldHex, .fields vs => vs.length == 4
  | .iDecodeFieldHex, .text _ => true
  | .jPack, .fields vs => vs.length == 2
  | .jUnpack, .word n => decide (n < 2 ^ 32)
  | .jEncodeBin, .fields vs => vs.length == 2
  | .jDecodeBin, .text _ => true
  | .jEncodePackedHex, .fields vs => vs.length == 2
  | .jDecodePackedHex, .text _ => true
  | .jEncodeFieldHex, .fields vs => vs.length == 2
  | .jDecodeFieldHex, .text _ => true
  | .wordToBin, .word n => decide (n < 2 ^ 32)
  | .binToWord, .text _ => true
  | .wordToHex, .word n => decide (n < 2 ^ 32)
  | .hexToWord, .text _ => true
  | _, _ => false

/-- The error kinds a port may raise (rules R27, R200). -/
def mayRaise : Port → ErrorKind → Bool
  | .rPack, k | .rEncodeBin, k | .rEncodePackedHex, k | .rEncodeFieldHex, k
  | .iPack, k | .iEncodeBin, k | .iEncodePackedHex, k | .iEncodeFieldHex, k
  | .jPack, k | .jEncodeBin, k | .jEncodePackedHex, k | .jEncodeFieldHex, k =>
    k == .fieldOutOfRange
  | .rDecodeBin, k | .rDecodeFieldHex, k | .iDecodeBin, k | .iDecodeFieldHex, k
  | .jDecodeBin, k | .jDecodeFieldHex, k | .binToWord, k => k == .malformedInput
  | .rDecodePackedHex, k | .iDecodePackedHex, k | .jDecodePackedHex, k | .hexToWord, k =>
    k == .malformedInput || k == .integerOverflow
  | .rUnpack, _ | .iUnpack, _ | .jUnpack, _ | .wordToBin, _ | .wordToHex, _ => false

/-- A binary string an encoder may return: 32 characters of `BIN` (rules R27, R64). -/
def isBinText (t : Text) : Bool := t.length == 32 && t.all isBin

/-- A hex text an encoder may return: `n` characters of `HEX_UPPER` (rules R27, R65, R66). -/
def isHexText (n : Nat) (t : Text) : Bool := t.length == n && t.all isHexUpper

/-- The `Ok` outputs of each port (the "Ok output" column of rule R27). -/
def mayReturn : Port → Output → Bool
  | .rPack, .word _ | .iPack, .word _ | .jPack, .word _ => true
  | .binToWord, .word _ | .hexToWord, .word _ => true
  | .rUnpack, .rFields _ | .rDecodeBin, .rFields _ => true
  | .rDecodePackedHex, .rFields _ | .rDecodeFieldHex, .rFields _ => true
  | .iUnpack, .iFields _ | .iDecodeBin, .iFields _ => true
  | .iDecodePackedHex, .iFields _ | .iDecodeFieldHex, .iFields _ => true
  | .jUnpack, .jFields _ | .jDecodeBin, .jFields _ => true
  | .jDecodePackedHex, .jFields _ | .jDecodeFieldHex, .jFields _ => true
  | .rEncodeBin, .text t | .iEncodeBin, .text t | .jEncodeBin, .text t | .wordToBin, .text t =>
    isBinText t
  | .rEncodePackedHex, .text t | .iEncodePackedHex, .text t => isHexText 8 t
  | .jEncodePackedHex, .text t | .wordToHex, .text t => isHexText 8 t
  | .rEncodeFieldHex, .text t => isHexText 12 t
  | .iEncodeFieldHex, .text t => isHexText 10 t
  | .jEncodeFieldHex, .text t => isHexText 9 t
  | _, _ => false

/-- A result the port may give (rules R27, R200). -/
def mayAnswer (p : Port) : Result → Bool
  | .ok v => mayReturn p v
  | .err e => mayRaise p (kindOf e)

/-- A payload that records a real failure: the length is wrong, the character is outside the smaller
alphabet at least, the group is too wide for its field yet fits its digits, the value is out of its
field's range, the number is no word (rules R101, R107, R108, R112, R114, R201, R202). -/
def errorLegal : Error → Bool
  | .malformedInput (.badLength (.exactly n) actual) =>
    (n == 32 || n == 12 || n == 10 || n == 9) && actual != n
  | .malformedInput (.badLength .atLeastOne actual) => actual == 0
  | .malformedInput (.badChar _ c) => !isBin c
  | .malformedInput (.fieldTooWide name v n) =>
    n == Config.width name && decide (2 ^ n ≤ v) && decide (v < 16 ^ fhDigits n)
  | .fieldOutOfRange name v n => n == Config.width name && !inRange v n
  | .integerOverflow v => decide (2 ^ 32 ≤ v)

/-- An output that some port may return. Words and fields are in range by their types. -/
def outputLegal : Output → Bool
  | .text t => isBinText t || isHexText 8 t || isHexText 12 t || isHexText 10 t || isHexText 9 t
  | .word _ | .rFields _ | .iFields _ | .jFields _ => true

/-- A result that can stand. -/
def resultLegal : Result → Bool
  | .ok v => outputLegal v
  | .err e => errorLegal e

/-- Every result the block has returned is legal. -/
def State.legal (s : State) : Bool := s.results.all resultLegal

/-- What is presented is a call of its port. -/
def callTyped (c : Call) : Bool := (decode c).isOk

/-- Every value presented is an input of its port, so no step stops: a safe run starts here. -/
def State.typed (s : State) : Bool := s.calls.all callTyped

/-- `k` steps one after another, stopping where one stops. -/
def steps : Nat → State → Host.Outcome State Fault Refusal
  | 0, s => .next s
  | k + 1, s =>
    match step s with
    | .next t => steps k t
    | .fault why => .fault why
    | .refused why => .refused why

/-- An R tuple's fields by name, in field order (rule R24). -/
def rNamed (f : RInts) : List (FieldName × Int) :=
  [(.opcode, f.opcode), (.rs, f.rs), (.rt, f.rt), (.rd, f.rd), (.shamt, f.shamt), (.funct, f.funct)]

/-- An I tuple's fields by name, in field order (rule R25). -/
def iNamed (f : IInts) : List (FieldName × Int) :=
  [(.opcode, f.opcode), (.rs, f.rs), (.rt, f.rt), (.immediate, f.immediate)]

/-- A J tuple's fields by name, in field order (rule R26). -/
def jNamed (f : JInts) : List (FieldName × Int) := [(.opcode, f.opcode), (.address, f.address)]

/-- The first field outside its range, the one an encoder reports (rules R101, R204). -/
def firstOutOfRange (fs : List (FieldName × Int)) : Option (FieldName × Int) :=
  fs.find? fun x => !inRange x.2 (Config.width x.1)

/-- The digit groups of an R field-hex text by field, in field order (rule R61). -/
def rGroups (t : Text) : List (FieldName × Nat) :=
  [(.opcode, hexValue (slice t 0 2)), (.rs, hexValue (slice t 2 4)), (.rt, hexValue (slice t 4 6)),
    (.rd, hexValue (slice t 6 8)), (.shamt, hexValue (slice t 8 10)),
    (.funct, hexValue (slice t 10 12))]

/-- The digit groups of an I field-hex text by field, in field order (rule R62). -/
def iGroups (t : Text) : List (FieldName × Nat) :=
  [(.opcode, hexValue (slice t 0 2)), (.rs, hexValue (slice t 2 4)), (.rt, hexValue (slice t 4 6)),
    (.immediate, hexValue (slice t 6 10))]

/-- The digit groups of a J field-hex text by field, in field order (rule R63). -/
def jGroups (t : Text) : List (FieldName × Nat) :=
  [(.opcode, hexValue (slice t 0 2)), (.address, hexValue (slice t 2 9))]

/-- The first group above its field's range, the one a field-hex decoder reports (rules R114,
R204). -/
def firstTooWide (gs : List (FieldName × Nat)) : Option (FieldName × Nat) :=
  gs.find? fun g => decide (2 ^ Config.width g.1 ≤ g.2)

end Sys2Proof.Machine
end

