-- ==== Sys2Proof/Certificates/Slice0/Obligations.lean ====
section
/-! DEFINITION. The statements for the provers. Every result statement is about exec and says the whole
next state, so that it is a frame and a completion statement as well. -/

open Sys2Proof Sys2Proof.Machine

/-- After reset nothing is presented and nothing returned, and a first call is answered as its rule says. (R32, R230; the model's choice in log entry 1.) -/
def Obligations.ResetPresentsNothing : Prop :=
  State.reset.calls = [] ∧ State.reset.results = [] ∧
    ∀ i : Instr, step (present (encode i) State.reset) = exec i State.reset

/-- A step takes the call presented first and is exec of the instruction it decodes to. (R22, R233; the model's choice in log entry 1.) -/
def Obligations.StepAnswersDecodedCall : Prop :=
  ∀ (s : State) (c : Call) (rest : List Call) (i : Instr),
    s.calls = c :: rest → decode c = .ok i → step s = exec i { s with calls := rest }

/-- With no call presented a step changes nothing. (10_state.md section 1; the model's choice in log entry 3.) -/
def Obligations.StepWithNothingPresentedChangesNothing : Prop :=
  ∀ s : State, s.calls = [] → step s = .next s

/-- A step stops exactly when the value presented first is not an input of its port. (R27, R234; the model's choice in log entry 4.) -/
def Obligations.StepStopsOnlyOnIllTypedInput : Prop :=
  ∀ s : State,
    ((∃ s', step s = .next s') ↔ s.calls = [] ∨ ∃ c rest, s.calls = c :: rest ∧ mayTake c.port c.input = true) ∧
    ∀ c rest, s.calls = c :: rest → mayTake c.port c.input = false →
      ∃ why, step s = .fault (.notAPortInput c.port why)

/-- A numbered call placed by withFetchWord is what the next step answers. (R71; the model's choice in log entry 2.) -/
def Obligations.FetchedWordRunsNext : Prop :=
  ∀ (s : State) (nbits w : Nat) (i : Instr),
    decodeTableWord nbits w = some i → step (s.withFetchWord nbits w) = exec i s

/-- Words written out from the layout tables decode to the calls they stand for. (R61, R62, R63; the model's choice in log entry 2.) -/
def Obligations.WrittenOutWordsDecode : Prop :=
  decodeTableWord 32 0b00000001000010010101000000100000 = some (.rPack ⟨0, 8, 9, 10, 0, 32⟩) ∧
    decodeTableWord 40 (1 * 2 ^ 32 + 0b00000001000010010101000000100000) = some (.rUnpack 0x01095020#32) ∧
    decodeTableWord 40 (3 * 2 ^ 32 + 0b00000001000010010101000000100000) =
      some (.rDecodeBin "00000001000010010101000000100000".toList) ∧
    decodeTableWord 40 (8 * 2 ^ 32 + 0b00100000001000100000000001100100) = some (.iPack ⟨8, 1, 2, 100⟩) ∧
    decodeTableWord 40 (16 * 2 ^ 32 + 0b00001000000000000000001111101000) = some (.jPack ⟨2, 1000⟩) ∧
    decodeTableWord 40 (23 * 2 ^ 32 + 0b00001000000000000000001111101000) =
      some (.jDecodeFieldHex "0200003E8".toList)

/-- The port a caller uses selects the operation; no value on it does. (R71, R72, R73.) -/
def Obligations.PortAloneSelectsOperation : Prop :=
  (∀ (c : Call) (i : Instr), decode c = .ok i → i.port = c.port) ∧
    ∀ (p : Port) (w : Word), ∃ i, decode (callOfWord p w) = .ok i ∧ i.port = p

/-- Decoding the number of a valid call in canonical text gives the call back. (R61, R62, R63, R64, R65, R66; the model's choice in log entry 2.) -/
def Obligations.DecodeOfEncodedNumberIsTheCall : Prop :=
  ∀ i : Instr, i.wellFormed = true → i.canonical = true → decodeTableWord 40 (encodeNumber i) = some i

/-- Every 32-bit word at every port is the encoding of exactly one valid call. (R72, R71; the model's choice in log entry 2.) -/
def Obligations.EveryNumberIsOneCall : Prop :=
  ∀ (p : Port) (w : Word), ∃ i : Instr,
    (i.wellFormed = true ∧ i.canonical = true ∧ encodeNumber i = p.number * 2 ^ 32 + w.toNat ∧
      decodeTableWord 40 (p.number * 2 ^ 32 + w.toNat) = some i) ∧
    ∀ j : Instr, j.wellFormed = true → j.canonical = true →
      encodeNumber j = p.number * 2 ^ 32 + w.toNat → j = i

/-- R.pack gives the word of the shifted and ORed fields, or FieldOutOfRange for the first bad field. (R130.) -/
def Obligations.RPackResult : Prop :=
  ∀ (f : RInts) (s : State),
    (∀ name v, firstOutOfRange (rNamed f) = some (name, v) →
      exec (.rPack f) s = .next { s with results := s.results ++ [.err (.fieldOutOfRange name v (Config.width name))] }) ∧
    (firstOutOfRange (rNamed f) = none →
      ∃ w : Word, w.toNat = f.opcode.toNat <<< 26 ||| f.rs.toNat <<< 21 ||| f.rt.toNat <<< 16 |||
        f.rd.toNat <<< 11 ||| f.shamt.toNat <<< 6 ||| f.funct.toNat ∧
      exec (.rPack f) s = .next { s with results := s.results ++ [.ok (.word w)] })

/-- R.unpack gives the fields by right shift and mask, for every word. (R131.) -/
def Obligations.RUnpackResult : Prop :=
  ∀ (w : Word) (s : State), ∃ F : RFields,
    F.opcode.toNat = (w.toNat >>> 26) &&& 0x3F ∧
    F.rs.toNat = (w.toNat >>> 21) &&& 0x1F ∧
    F.rt.toNat = (w.toNat >>> 16) &&& 0x1F ∧
    F.rd.toNat = (w.toNat >>> 11) &&& 0x1F ∧
    F.shamt.toNat = (w.toNat >>> 6) &&& 0x1F ∧
    F.funct.toNat = w.toNat &&& 0x3F ∧
    exec (.rUnpack w) s = .next { s with results := s.results ++ [.ok (.rFields F)] }

/-- R.encode_bin gives the fields in binary one after another, which is the packed word in binary. (R132.) -/
def Obligations.REncodeBinResult : Prop :=
  ∀ (f : RInts) (s : State),
    (∀ name v, firstOutOfRange (rNamed f) = some (name, v) →
      exec (.rEncodeBin f) s = .next { s with results := s.results ++ [.err (.fieldOutOfRange name v (Config.width name))] }) ∧
    (firstOutOfRange (rNamed f) = none →
      ∃ (t : Text) (w : Word), t = binRender f.opcode.toNat 6 ++ binRender f.rs.toNat 5 ++ binRender f.rt.toNat 5 ++
        binRender f.rd.toNat 5 ++ binRender f.shamt.toNat 5 ++ binRender f.funct.toNat 6 ∧
      w.toNat = f.opcode.toNat <<< 26 ||| f.rs.toNat <<< 21 ||| f.rt.toNat <<< 16 |||
        f.rd.toNat <<< 11 ||| f.shamt.toNat <<< 6 ||| f.funct.toNat ∧ t = binRender w.toNat 32 ∧ t.length = 32 ∧
      exec (.rEncodeBin f) s = .next { s with results := s.results ++ [.ok (.text t)] })

/-- R.decode_bin reads the fields at fixed offsets, or reports a wrong length or the first bad character. (R133.) -/
def Obligations.RDecodeBinResult : Prop :=
  ∀ (t : Text) (s : State),
    (t.length ≠ 32 →
      exec (.rDecodeBin t) s = .next { s with results := s.results ++ [.err (.malformedInput (.badLength (.exactly 32) t.length))] }) ∧
    (∀ (k : Nat) (c : Char), t.length = 32 → t[k]? = some c → isBin c = false → (t.take k).all isBin = true →
      exec (.rDecodeBin t) s = .next { s with results := s.results ++ [.err (.malformedInput (.badChar k c))] }) ∧
    (t.length = 32 → t.all isBin = true → ∃ (F : RFields) (w : Word),
      F.opcode.toNat = binValue (slice t 0 6) ∧
      F.rs.toNat = binValue (slice t 6 11) ∧
      F.rt.toNat = binValue (slice t 11 16) ∧
      F.rd.toNat = binValue (slice t 16 21) ∧
      F.shamt.toNat = binValue (slice t 21 26) ∧
      F.funct.toNat = binValue (slice t 26 32) ∧
      w.toNat = binValue t ∧
      F.opcode.toNat = (w.toNat >>> 26) &&& 0x3F ∧
      F.rs.toNat = (w.toNat >>> 21) &&& 0x1F ∧
      F.rt.toNat = (w.toNat >>> 16) &&& 0x1F ∧
      F.rd.toNat = (w.toNat >>> 11) &&& 0x1F ∧
      F.shamt.toNat = (w.toNat >>> 6) &&& 0x1F ∧
      F.funct.toNat = w.toNat &&& 0x3F ∧
      exec (.rDecodeBin t) s = .next { s with results := s.results ++ [.ok (.rFields F)] })

/-- R.encode_packed_hex gives the packed word as 8 upper-case hex digits. (R134.) -/
def Obligations.REncodePackedHexResult : Prop :=
  ∀ (f : RInts) (s : State),
    (∀ name v, firstOutOfRange (rNamed f) = some (name, v) →
      exec (.rEncodePackedHex f) s = .next { s with results := s.results ++ [.err (.fieldOutOfRange name v (Config.width name))] }) ∧
    (firstOutOfRange (rNamed f) = none →
      ∃ w : Word, w.toNat = f.opcode.toNat <<< 26 ||| f.rs.toNat <<< 21 ||| f.rt.toNat <<< 16 |||
        f.rd.toNat <<< 11 ||| f.shamt.toNat <<< 6 ||| f.funct.toNat ∧
      exec (.rEncodePackedHex f) s = .next { s with results := s.results ++ [.ok (.text (hexRender w.toNat 8))] })

/-- R.decode_packed_hex reads any non-empty hex text below 2^32 as a word and unpacks it, or reports the error. (R135.) -/
def Obligations.RDecodePackedHexResult : Prop :=
  ∀ (t : Text) (s : State),
    (t = [] →
      exec (.rDecodePackedHex t) s = .next { s with results := s.results ++ [.err (.malformedInput (.badLength .atLeastOne 0))] }) ∧
    (∀ (k : Nat) (c : Char), t[k]? = some c → isHex c = false → (t.take k).all isHex = true →
      exec (.rDecodePackedHex t) s = .next { s with results := s.results ++ [.err (.malformedInput (.badChar k c))] }) ∧
    (t.all isHex = true → 2 ^ 32 ≤ hexValue t →
      exec (.rDecodePackedHex t) s = .next { s with results := s.results ++ [.err (.integerOverflow (hexValue t))] }) ∧
    (t ≠ [] → t.all isHex = true → hexValue t < 2 ^ 32 → ∃ F : RFields,
      F.opcode.toNat = (hexValue t >>> 26) &&& 0x3F ∧
      F.rs.toNat = (hexValue t >>> 21) &&& 0x1F ∧
      F.rt.toNat = (hexValue t >>> 16) &&& 0x1F ∧
      F.rd.toNat = (hexValue t >>> 11) &&& 0x1F ∧
      F.shamt.toNat = (hexValue t >>> 6) &&& 0x1F ∧
      F.funct.toNat = hexValue t &&& 0x3F ∧
      exec (.rDecodePackedHex t) s = .next { s with results := s.results ++ [.ok (.rFields F)] })

/-- R.encode_field_hex gives each field's own hex digits one after another, 12 characters. (R136.) -/
def Obligations.REncodeFieldHexResult : Prop :=
  ∀ (f : RInts) (s : State),
    (∀ name v, firstOutOfRange (rNamed f) = some (name, v) →
      exec (.rEncodeFieldHex f) s = .next { s with results := s.results ++ [.err (.fieldOutOfRange name v (Config.width name))] }) ∧
    (firstOutOfRange (rNamed f) = none →
      ∃ t : Text, t = hexRender f.opcode.toNat 2 ++ hexRender f.rs.toNat 2 ++ hexRender f.rt.toNat 2 ++
        hexRender f.rd.toNat 2 ++ hexRender f.shamt.toNat 2 ++ hexRender f.funct.toNat 2 ∧
      t.length = 12 ∧ t.all isHexUpper = true ∧
      exec (.rEncodeFieldHex f) s = .next { s with results := s.results ++ [.ok (.text t)] })

/-- R.decode_field_hex reads each field's digit group, or reports length, character or a group too wide. (R137.) -/
def Obligations.RDecodeFieldHexResult : Prop :=
  ∀ (t : Text) (s : State),
    (t.length ≠ 12 →
      exec (.rDecodeFieldHex t) s = .next { s with results := s.results ++ [.err (.malformedInput (.badLength (.exactly 12) t.length))] }) ∧
    (∀ (k : Nat) (c : Char), t.length = 12 → t[k]? = some c → isHex c = false → (t.take k).all isHex = true →
      exec (.rDecodeFieldHex t) s = .next { s with results := s.results ++ [.err (.malformedInput (.badChar k c))] }) ∧
    (∀ name v, t.length = 12 → t.all isHex = true → firstTooWide (rGroups t) = some (name, v) →
      exec (.rDecodeFieldHex t) s = .next { s with results := s.results ++ [.err (.malformedInput (.fieldTooWide name v (Config.width name)))] }) ∧
    (t.length = 12 → t.all isHex = true → firstTooWide (rGroups t) = none → ∃ F : RFields,
      F.opcode.toNat = hexValue (slice t 0 2) ∧
      F.rs.toNat = hexValue (slice t 2 4) ∧
      F.rt.toNat = hexValue (slice t 4 6) ∧
      F.rd.toNat = hexValue (slice t 6 8) ∧
      F.shamt.toNat = hexValue (slice t 8 10) ∧
      F.funct.toNat = hexValue (slice t 10 12) ∧
      exec (.rDecodeFieldHex t) s = .next { s with results := s.results ++ [.ok (.rFields F)] })

/-- I.pack gives the word of the shifted and ORed fields, or FieldOutOfRange for the first bad field. (R150.) -/
def Obligations.IPackResult : Prop :=
  ∀ (f : IInts) (s : State),
    (∀ name v, firstOutOfRange (iNamed f) = some (name, v) →
      exec (.iPack f) s = .next { s with results := s.results ++ [.err (.fieldOutOfRange name v (Config.width name))] }) ∧
    (firstOutOfRange (iNamed f) = none →
      ∃ w : Word, w.toNat = f.opcode.toNat <<< 26 ||| f.rs.toNat <<< 21 ||| f.rt.toNat <<< 16 |||
        f.immediate.toNat ∧
      exec (.iPack f) s = .next { s with results := s.results ++ [.ok (.word w)] })

/-- I.unpack gives the fields by right shift and mask, for every word. (R151.) -/
def Obligations.IUnpackResult : Prop :=
  ∀ (w : Word) (s : State), ∃ F : IFields,
    F.opcode.toNat = (w.toNat >>> 26) &&& 0x3F ∧
    F.rs.toNat = (w.toNat >>> 21) &&& 0x1F ∧
    F.rt.toNat = (w.toNat >>> 16) &&& 0x1F ∧
    F.immediate.toNat = w.toNat &&& 0xFFFF ∧
    exec (.iUnpack w) s = .next { s with results := s.results ++ [.ok (.iFields F)] }

/-- I.encode_bin gives the fields in binary one after another, which is the packed word in binary. (R152.) -/
def Obligations.IEncodeBinResult : Prop :=
  ∀ (f : IInts) (s : State),
    (∀ name v, firstOutOfRange (iNamed f) = some (name, v) →
      exec (.iEncodeBin f) s = .next { s with results := s.results ++ [.err (.fieldOutOfRange name v (Config.width name))] }) ∧
    (firstOutOfRange (iNamed f) = none →
      ∃ (t : Text) (w : Word), t = binRender f.opcode.toNat 6 ++ binRender f.rs.toNat 5 ++ binRender f.rt.toNat 5 ++ binRender f.immediate.toNat 16 ∧
      w.toNat = f.opcode.toNat <<< 26 ||| f.rs.toNat <<< 21 ||| f.rt.toNat <<< 16 |||
        f.immediate.toNat ∧ t = binRender w.toNat 32 ∧ t.length = 32 ∧
      exec (.iEncodeBin f) s = .next { s with results := s.results ++ [.ok (.text t)] })

/-- I.decode_bin reads the fields at fixed offsets, or reports a wrong length or the first bad character. (R153.) -/
def Obligations.IDecodeBinResult : Prop :=
  ∀ (t : Text) (s : State),
    (t.length ≠ 32 →
      exec (.iDecodeBin t) s = .next { s with results := s.results ++ [.err (.malformedInput (.badLength (.exactly 32) t.length))] }) ∧
    (∀ (k : Nat) (c : Char), t.length = 32 → t[k]? = some c → isBin c = false → (t.take k).all isBin = true →
      exec (.iDecodeBin t) s = .next { s with results := s.results ++ [.err (.malformedInput (.badChar k c))] }) ∧
    (t.length = 32 → t.all isBin = true → ∃ (F : IFields) (w : Word),
      F.opcode.toNat = binValue (slice t 0 6) ∧
      F.rs.toNat = binValue (slice t 6 11) ∧
      F.rt.toNat = binValue (slice t 11 16) ∧
      F.immediate.toNat = binValue (slice t 16 32) ∧
      w.toNat = binValue t ∧
      F.opcode.toNat = (w.toNat >>> 26) &&& 0x3F ∧
      F.rs.toNat = (w.toNat >>> 21) &&& 0x1F ∧
      F.rt.toNat = (w.toNat >>> 16) &&& 0x1F ∧
      F.immediate.toNat = w.toNat &&& 0xFFFF ∧
      exec (.iDecodeBin t) s = .next { s with results := s.results ++ [.ok (.iFields F)] })

/-- I.encode_packed_hex gives the packed word as 8 upper-case hex digits. (R154.) -/
def Obligations.IEncodePackedHexResult : Prop :=
  ∀ (f : IInts) (s : State),
    (∀ name v, firstOutOfRange (iNamed f) = some (name, v) →
      exec (.iEncodePackedHex f) s = .next { s with results := s.results ++ [.err (.fieldOutOfRange name v (Config.width name))] }) ∧
    (firstOutOfRange (iNamed f) = none →
      ∃ w : Word, w.toNat = f.opcode.toNat <<< 26 ||| f.rs.toNat <<< 21 ||| f.rt.toNat <<< 16 |||
        f.immediate.toNat ∧
      exec (.iEncodePackedHex f) s = .next { s with results := s.results ++ [.ok (.text (hexRender w.toNat 8))] })

/-- I.decode_packed_hex reads any non-empty hex text below 2^32 as a word and unpacks it, or reports the error. (R155.) -/
def Obligations.IDecodePackedHexResult : Prop :=
  ∀ (t : Text) (s : State),
    (t = [] →
      exec (.iDecodePackedHex t) s = .next { s with results := s.results ++ [.err (.malformedInput (.badLength .atLeastOne 0))] }) ∧
    (∀ (k : Nat) (c : Char), t[k]? = some c → isHex c = false → (t.take k).all isHex = true →
      exec (.iDecodePackedHex t) s = .next { s with results := s.results ++ [.err (.malformedInput (.badChar k c))] }) ∧
    (t.all isHex = true → 2 ^ 32 ≤ hexValue t →
      exec (.iDecodePackedHex t) s = .next { s with results := s.results ++ [.err (.integerOverflow (hexValue t))] }) ∧
    (t ≠ [] → t.all isHex = true → hexValue t < 2 ^ 32 → ∃ F : IFields,
      F.opcode.toNat = (hexValue t >>> 26) &&& 0x3F ∧
      F.rs.toNat = (hexValue t >>> 21) &&& 0x1F ∧
      F.rt.toNat = (hexValue t >>> 16) &&& 0x1F ∧
      F.immediate.toNat = hexValue t &&& 0xFFFF ∧
      exec (.iDecodePackedHex t) s = .next { s with results := s.results ++ [.ok (.iFields F)] })

/-- I.encode_field_hex gives each field's own hex digits one after another, 10 characters. (R156.) -/
def Obligations.IEncodeFieldHexResult : Prop :=
  ∀ (f : IInts) (s : State),
    (∀ name v, firstOutOfRange (iNamed f) = some (name, v) →
      exec (.iEncodeFieldHex f) s = .next { s with results := s.results ++ [.err (.fieldOutOfRange name v (Config.width name))] }) ∧
    (firstOutOfRange (iNamed f) = none →
      ∃ t : Text, t = hexRender f.opcode.toNat 2 ++ hexRender f.rs.toNat 2 ++ hexRender f.rt.toNat 2 ++ hexRender f.immediate.toNat 4 ∧
      t.length = 10 ∧ t.all isHexUpper = true ∧
      exec (.iEncodeFieldHex f) s = .next { s with results := s.results ++ [.ok (.text t)] })

/-- I.decode_field_hex reads each field's digit group, or reports length, character or a group too wide. (R157.) -/
def Obligations.IDecodeFieldHexResult : Prop :=
  ∀ (t : Text) (s : State),
    (t.length ≠ 10 →
      exec (.iDecodeFieldHex t) s = .next { s with results := s.results ++ [.err (.malformedInput (.badLength (.exactly 10) t.length))] }) ∧
    (∀ (k : Nat) (c : Char), t.length = 10 → t[k]? = some c → isHex c = false → (t.take k).all isHex = true →
      exec (.iDecodeFieldHex t) s = .next { s with results := s.results ++ [.err (.malformedInput (.badChar k c))] }) ∧
    (∀ name v, t.length = 10 → t.all isHex = true → firstTooWide (iGroups t) = some (name, v) →
      exec (.iDecodeFieldHex t) s = .next { s with results := s.results ++ [.err (.malformedInput (.fieldTooWide name v (Config.width name)))] }) ∧
    (t.length = 10 → t.all isHex = true → firstTooWide (iGroups t) = none → ∃ F : IFields,
      F.opcode.toNat = hexValue (slice t 0 2) ∧
      F.rs.toNat = hexValue (slice t 2 4) ∧
      F.rt.toNat = hexValue (slice t 4 6) ∧
      F.immediate.toNat = hexValue (slice t 6 10) ∧
      exec (.iDecodeFieldHex t) s = .next { s with results := s.results ++ [.ok (.iFields F)] })

/-- J.pack gives the word of the shifted and ORed fields, or FieldOutOfRange for the first bad field. (R170.) -/
def Obligations.JPackResult : Prop :=
  ∀ (f : JInts) (s : State),
    (∀ name v, firstOutOfRange (jNamed f) = some (name, v) →
      exec (.jPack f) s = .next { s with results := s.results ++ [.err (.fieldOutOfRange name v (Config.width name))] }) ∧
    (firstOutOfRange (jNamed f) = none →
      ∃ w : Word, w.toNat = f.opcode.toNat <<< 26 ||| f.address.toNat ∧
      exec (.jPack f) s = .next { s with results := s.results ++ [.ok (.word w)] })

/-- J.unpack gives the fields by right shift and mask, for every word. (R171.) -/
def Obligations.JUnpackResult : Prop :=
  ∀ (w : Word) (s : State), ∃ F : JFields,
    F.opcode.toNat = (w.toNat >>> 26) &&& 0x3F ∧
    F.address.toNat = w.toNat &&& 0x3FFFFFF ∧
    exec (.jUnpack w) s = .next { s with results := s.results ++ [.ok (.jFields F)] }

/-- J.encode_bin gives the fields in binary one after another, which is the packed word in binary. (R172.) -/
def Obligations.JEncodeBinResult : Prop :=
  ∀ (f : JInts) (s : State),
    (∀ name v, firstOutOfRange (jNamed f) = some (name, v) →
      exec (.jEncodeBin f) s = .next { s with results := s.results ++ [.err (.fieldOutOfRange name v (Config.width name))] }) ∧
    (firstOutOfRange (jNamed f) = none →
      ∃ (t : Text) (w : Word), t = binRender f.opcode.toNat 6 ++ binRender f.address.toNat 26 ∧
      w.toNat = f.opcode.toNat <<< 26 ||| f.address.toNat ∧ t = binRender w.toNat 32 ∧ t.length = 32 ∧
      exec (.jEncodeBin f) s = .next { s with results := s.results ++ [.ok (.text t)] })

/-- J.decode_bin reads the fields at fixed offsets, or reports a wrong length or the first bad character. (R173.) -/
def Obligations.JDecodeBinResult : Prop :=
  ∀ (t : Text) (s : State),
    (t.length ≠ 32 →
      exec (.jDecodeBin t) s = .next { s with results := s.results ++ [.err (.malformedInput (.badLength (.exactly 32) t.length))] }) ∧
    (∀ (k : Nat) (c : Char), t.length = 32 → t[k]? = some c → isBin c = false → (t.take k).all isBin = true →
      exec (.jDecodeBin t) s = .next { s with results := s.results ++ [.err (.malformedInput (.badChar k c))] }) ∧
    (t.length = 32 → t.all isBin = true → ∃ (F : JFields) (w : Word),
      F.opcode.toNat = binValue (slice t 0 6) ∧
      F.address.toNat = binValue (slice t 6 32) ∧
      w.toNat = binValue t ∧
      F.opcode.toNat = (w.toNat >>> 26) &&& 0x3F ∧
      F.address.toNat = w.toNat &&& 0x3FFFFFF ∧
      exec (.jDecodeBin t) s = .next { s with results := s.results ++ [.ok (.jFields F)] })

/-- J.encode_packed_hex gives the packed word as 8 upper-case hex digits. (R174.) -/
def Obligations.JEncodePackedHexResult : Prop :=
  ∀ (f : JInts) (s : State),
    (∀ name v, firstOutOfRange (jNamed f) = some (name, v) →
      exec (.jEncodePackedHex f) s = .next { s with results := s.results ++ [.err (.fieldOutOfRange name v (Config.width name))] }) ∧
    (firstOutOfRange (jNamed f) = none →
      ∃ w : Word, w.toNat = f.opcode.toNat <<< 26 ||| f.address.toNat ∧
      exec (.jEncodePackedHex f) s = .next { s with results := s.results ++ [.ok (.text (hexRender w.toNat 8))] })

/-- J.decode_packed_hex reads any non-empty hex text below 2^32 as a word and unpacks it, or reports the error. (R175.) -/
def Obligations.JDecodePackedHexResult : Prop :=
  ∀ (t : Text) (s : State),
    (t = [] →
      exec (.jDecodePackedHex t) s = .next { s with results := s.results ++ [.err (.malformedInput (.badLength .atLeastOne 0))] }) ∧
    (∀ (k : Nat) (c : Char), t[k]? = some c → isHex c = false → (t.take k).all isHex = true →
      exec (.jDecodePackedHex t) s = .next { s with results := s.results ++ [.err (.malformedInput (.badChar k c))] }) ∧
    (t.all isHex = true → 2 ^ 32 ≤ hexValue t →
      exec (.jDecodePackedHex t) s = .next { s with results := s.results ++ [.err (.integerOverflow (hexValue t))] }) ∧
    (t ≠ [] → t.all isHex = true → hexValue t < 2 ^ 32 → ∃ F : JFields,
      F.opcode.toNat = (hexValue t >>> 26) &&& 0x3F ∧
      F.address.toNat = hexValue t &&& 0x3FFFFFF ∧
      exec (.jDecodePackedHex t) s = .next { s with results := s.results ++ [.ok (.jFields F)] })

/-- J.encode_field_hex gives each field's own hex digits one after another, 9 characters. (R176.) -/
def Obligations.JEncodeFieldHexResult : Prop :=
  ∀ (f : JInts) (s : State),
    (∀ name v, firstOutOfRange (jNamed f) = some (name, v) →
      exec (.jEncodeFieldHex f) s = .next { s with results := s.results ++ [.err (.fieldOutOfRange name v (Config.width name))] }) ∧
    (firstOutOfRange (jNamed f) = none →
      ∃ t : Text, t = hexRender f.opcode.toNat 2 ++ hexRender f.address.toNat 7 ∧
      t.length = 9 ∧ t.all isHexUpper = true ∧
      exec (.jEncodeFieldHex f) s = .next { s with results := s.results ++ [.ok (.text t)] })

/-- J.decode_field_hex reads each field's digit group, or reports length, character or a group too wide. (R177.) -/
def Obligations.JDecodeFieldHexResult : Prop :=
  ∀ (t : Text) (s : State),
    (t.length ≠ 9 →
      exec (.jDecodeFieldHex t) s = .next { s with results := s.results ++ [.err (.malformedInput (.badLength (.exactly 9) t.length))] }) ∧
    (∀ (k : Nat) (c : Char), t.length = 9 → t[k]? = some c → isHex c = false → (t.take k).all isHex = true →
      exec (.jDecodeFieldHex t) s = .next { s with results := s.results ++ [.err (.malformedInput (.badChar k c))] }) ∧
    (∀ name v, t.length = 9 → t.all isHex = true → firstTooWide (jGroups t) = some (name, v) →
      exec (.jDecodeFieldHex t) s = .next { s with results := s.results ++ [.err (.malformedInput (.fieldTooWide name v (Config.width name)))] }) ∧
    (t.length = 9 → t.all isHex = true → firstTooWide (jGroups t) = none → ∃ F : JFields,
      F.opcode.toNat = hexValue (slice t 0 2) ∧
      F.address.toNat = hexValue (slice t 2 9) ∧
      exec (.jDecodeFieldHex t) s = .next { s with results := s.results ++ [.ok (.jFields F)] })

/-- word_to_bin gives 32 characters, character k being bit 31 - k. (R109.) -/
def Obligations.WordToBinResult : Prop :=
  ∀ (w : Word) (s : State), ∃ t : Text,
    t.length = 32 ∧ (∀ k < 32, t[k]? = some (if w.toNat.testBit (31 - k) then '1' else '0')) ∧
    exec (.wordToBin w) s = .next { s with results := s.results ++ [.ok (.text t)] }

/-- bin_to_word reads 32 binary digits as a word, or reports a wrong length or the first bad character. (R110.) -/
def Obligations.BinToWordResult : Prop :=
  ∀ (t : Text) (s : State),
    (t.length ≠ 32 →
      exec (.binToWord t) s = .next { s with results := s.results ++ [.err (.malformedInput (.badLength (.exactly 32) t.length))] }) ∧
    (∀ (k : Nat) (c : Char), t.length = 32 → t[k]? = some c → isBin c = false → (t.take k).all isBin = true →
      exec (.binToWord t) s = .next { s with results := s.results ++ [.err (.malformedInput (.badChar k c))] }) ∧
    (t.length = 32 → t.all isBin = true → ∃ w : Word, w.toNat = binValue t ∧
      (∀ k < 32, w.toNat.testBit (31 - k) = decide (t[k]? = some '1')) ∧
      exec (.binToWord t) s = .next { s with results := s.results ++ [.ok (.word w)] })

/-- word_to_hex gives 8 upper-case digits, character k the digit of bits 31 - 4k to 28 - 4k. (R111.) -/
def Obligations.WordToHexResult : Prop :=
  ∀ (w : Word) (s : State), ∃ t : Text,
    t.length = 8 ∧ (∀ k < 8, t[k]? = "0123456789ABCDEF".toList[w.toNat / 2 ^ (28 - 4 * k) % 16]?) ∧
    exec (.wordToHex w) s = .next { s with results := s.results ++ [.ok (.text t)] }

/-- hex_to_word reads any non-empty hex text below 2^32 as a word, or reports the error. (R112.) -/
def Obligations.HexToWordResult : Prop :=
  ∀ (t : Text) (s : State),
    (t = [] →
      exec (.hexToWord t) s = .next { s with results := s.results ++ [.err (.malformedInput (.badLength .atLeastOne 0))] }) ∧
    (∀ (k : Nat) (c : Char), t[k]? = some c → isHex c = false → (t.take k).all isHex = true →
      exec (.hexToWord t) s = .next { s with results := s.results ++ [.err (.malformedInput (.badChar k c))] }) ∧
    (t.all isHex = true → 2 ^ 32 ≤ hexValue t →
      exec (.hexToWord t) s = .next { s with results := s.results ++ [.err (.integerOverflow (hexValue t))] }) ∧
    (t ≠ [] → t.all isHex = true → hexValue t < 2 ^ 32 → ∃ w : Word, w.toNat = hexValue t ∧
      exec (.hexToWord t) s = .next { s with results := s.results ++ [.ok (.word w)] })

/-- R: every decoder inverts its encoder on all valid tuples, and pack and unpack are inverse. (R138.) -/
def Obligations.RRoundTrips : Prop :=
  (∀ (f : RInts) (s : State), f.valid = true → ∃ F : RFields, rToInts F = f ∧
      (∃ t, exec (.rEncodeBin f) s = .next { s with results := s.results ++ [.ok (.text t)] } ∧
        exec (.rDecodeBin t) s = .next { s with results := s.results ++ [.ok (.rFields F)] }) ∧
      (∃ t, exec (.rEncodePackedHex f) s = .next { s with results := s.results ++ [.ok (.text t)] } ∧
        exec (.rDecodePackedHex t) s = .next { s with results := s.results ++ [.ok (.rFields F)] }) ∧
      (∃ t, exec (.rEncodeFieldHex f) s = .next { s with results := s.results ++ [.ok (.text t)] } ∧
        exec (.rDecodeFieldHex t) s = .next { s with results := s.results ++ [.ok (.rFields F)] }) ∧
      (∃ w, exec (.rPack f) s = .next { s with results := s.results ++ [.ok (.word w)] } ∧
        exec (.rUnpack w) s = .next { s with results := s.results ++ [.ok (.rFields F)] })) ∧
    (∀ (w : Word) (s : State), ∃ F : RFields, exec (.rUnpack w) s = .next { s with results := s.results ++ [.ok (.rFields F)] } ∧
        exec (.rPack (rToInts F)) s = .next { s with results := s.results ++ [.ok (.word w)] })

/-- I: every decoder inverts its encoder on all valid tuples, and pack and unpack are inverse. (R158.) -/
def Obligations.IRoundTrips : Prop :=
  (∀ (f : IInts) (s : State), f.valid = true → ∃ F : IFields, iToInts F = f ∧
      (∃ t, exec (.iEncodeBin f) s = .next { s with results := s.results ++ [.ok (.text t)] } ∧
        exec (.iDecodeBin t) s = .next { s with results := s.results ++ [.ok (.iFields F)] }) ∧
      (∃ t, exec (.iEncodePackedHex f) s = .next { s with results := s.results ++ [.ok (.text t)] } ∧
        exec (.iDecodePackedHex t) s = .next { s with results := s.results ++ [.ok (.iFields F)] }) ∧
      (∃ t, exec (.iEncodeFieldHex f) s = .next { s with results := s.results ++ [.ok (.text t)] } ∧
        exec (.iDecodeFieldHex t) s = .next { s with results := s.results ++ [.ok (.iFields F)] }) ∧
      (∃ w, exec (.iPack f) s = .next { s with results := s.results ++ [.ok (.word w)] } ∧
        exec (.iUnpack w) s = .next { s with results := s.results ++ [.ok (.iFields F)] })) ∧
    (∀ (w : Word) (s : State), ∃ F : IFields, exec (.iUnpack w) s = .next { s with results := s.results ++ [.ok (.iFields F)] } ∧
        exec (.iPack (iToInts F)) s = .next { s with results := s.results ++ [.ok (.word w)] })

/-- J: the round trips, and what J.decode_packed_hex makes of a J field-hex text. (R178, R175, R67; the model's choice in log entry 12.) -/
def Obligations.JRoundTripsAndMisread : Prop :=
  (∀ (f : JInts) (s : State), f.valid = true → ∃ F : JFields, jToInts F = f ∧
      (∃ t, exec (.jEncodeBin f) s = .next { s with results := s.results ++ [.ok (.text t)] } ∧
        exec (.jDecodeBin t) s = .next { s with results := s.results ++ [.ok (.jFields F)] }) ∧
      (∃ t, exec (.jEncodePackedHex f) s = .next { s with results := s.results ++ [.ok (.text t)] } ∧
        exec (.jDecodePackedHex t) s = .next { s with results := s.results ++ [.ok (.jFields F)] }) ∧
      (∃ t, exec (.jEncodeFieldHex f) s = .next { s with results := s.results ++ [.ok (.text t)] } ∧
        exec (.jDecodeFieldHex t) s = .next { s with results := s.results ++ [.ok (.jFields F)] }) ∧
      (∃ w, exec (.jPack f) s = .next { s with results := s.results ++ [.ok (.word w)] } ∧
        exec (.jUnpack w) s = .next { s with results := s.results ++ [.ok (.jFields F)] })) ∧
    (∀ (w : Word) (s : State), ∃ F : JFields, exec (.jUnpack w) s = .next { s with results := s.results ++ [.ok (.jFields F)] } ∧
        exec (.jPack (jToInts F)) s = .next { s with results := s.results ++ [.ok (.word w)] }) ∧
    (∀ (f : JInts) (s : State), f.valid = true → ∃ t,
      exec (.jEncodeFieldHex f) s = .next { s with results := s.results ++ [.ok (.text t)] } ∧
      (hexValue t < 2 ^ 32 ↔ f.opcode ≤ 15) ∧
      (f.opcode ≤ 15 → ∃ (w : Word) (F : JFields), w.toNat = hexValue t ∧
        exec (.jUnpack w) s = .next { s with results := s.results ++ [.ok (.jFields F)] } ∧
        exec (.jDecodePackedHex t) s = .next { s with results := s.results ++ [.ok (.jFields F)] } ∧
        (F.opcode.toNat : Int) = 4 * f.opcode ∧ (F.address.toNat : Int) = f.address ∧
        (jToInts F = f ↔ f.opcode = 0)) ∧
      (15 < f.opcode →
        exec (.jDecodePackedHex t) s = .next { s with results := s.results ++ [.err (.integerOverflow (hexValue t))] }))

/-- The word serializers invert each other; binary text is unique and hex text unique up to case and leading zeros. (R115.) -/
def Obligations.WordSerializersRoundTrip : Prop :=
  ∀ s : State,
    (∀ w : Word, (∃ t, exec (.wordToBin w) s = .next { s with results := s.results ++ [.ok (.text t)] } ∧
        exec (.binToWord t) s = .next { s with results := s.results ++ [.ok (.word w)] }) ∧
      (∃ t, exec (.wordToHex w) s = .next { s with results := s.results ++ [.ok (.text t)] } ∧
        exec (.hexToWord t) s = .next { s with results := s.results ++ [.ok (.word w)] })) ∧
    (∀ (t : Text) (w : Word), exec (.binToWord t) s = .next { s with results := s.results ++ [.ok (.word w)] } →
      exec (.wordToBin w) s = .next { s with results := s.results ++ [.ok (.text t)] }) ∧
    (∀ (t : Text) (w : Word), exec (.hexToWord t) s = .next { s with results := s.results ++ [.ok (.word w)] } →
      ∃ u : Text, u = t.map Char.toUpper ∧ (∀ c ∈ u.take (u.length - 8), c = '0') ∧
        exec (.wordToHex w) s = .next { s with results := s.results ++ [.ok (.text ((List.replicate 8 '0' ++ u).drop u.length))] })

/-- The same word read under the three layouts: opcode alike, immediate and address made of the other layouts' fields. (R74.) -/
def Obligations.LayoutsShareTheWord : Prop :=
  ∀ (w : Word) (s : State), ∃ (R : RFields) (I : IFields) (J : JFields),
    exec (.rUnpack w) s = .next { s with results := s.results ++ [.ok (.rFields R)] } ∧
    exec (.iUnpack w) s = .next { s with results := s.results ++ [.ok (.iFields I)] } ∧
    exec (.jUnpack w) s = .next { s with results := s.results ++ [.ok (.jFields J)] } ∧
    I.opcode = R.opcode ∧ J.opcode = R.opcode ∧ I.rs = R.rs ∧ I.rt = R.rt ∧
    I.immediate.toNat = R.rd.toNat <<< 11 ||| R.shamt.toNat <<< 6 ||| R.funct.toNat ∧
    J.address.toNat = I.rs.toNat <<< 21 ||| I.rt.toNat <<< 16 ||| I.immediate.toNat

/-- In every layout the binary string is 32 characters, character k being bit 31 - k of the packed word. (R64.) -/
def Obligations.BinaryStringIsTheWordBitByBit : Prop :=
  (∀ (f : RInts) (s : State), f.valid = true → ∃ (t : Text) (w : Word),
      exec (.rEncodeBin f) s = .next { s with results := s.results ++ [.ok (.text t)] } ∧
      exec (.rPack f) s = .next { s with results := s.results ++ [.ok (.word w)] } ∧
      t.length = 32 ∧ t.all isBin = true ∧
      (∀ k < 32, t[k]? = some (if w.toNat.testBit (31 - k) then '1' else '0')) ∧
      slice t 0 6 = binRender f.opcode.toNat 6 ∧
      slice t 6 11 = binRender f.rs.toNat 5 ∧
      slice t 11 16 = binRender f.rt.toNat 5 ∧
      slice t 16 21 = binRender f.rd.toNat 5 ∧
      slice t 21 26 = binRender f.shamt.toNat 5 ∧
      slice t 26 32 = binRender f.funct.toNat 6) ∧
    (∀ (f : IInts) (s : State), f.valid = true → ∃ (t : Text) (w : Word),
      exec (.iEncodeBin f) s = .next { s with results := s.results ++ [.ok (.text t)] } ∧
      exec (.iPack f) s = .next { s with results := s.results ++ [.ok (.word w)] } ∧
      t.length = 32 ∧ t.all isBin = true ∧
      (∀ k < 32, t[k]? = some (if w.toNat.testBit (31 - k) then '1' else '0')) ∧
      slice t 0 6 = binRender f.opcode.toNat 6 ∧
      slice t 6 11 = binRender f.rs.toNat 5 ∧
      slice t 11 16 = binRender f.rt.toNat 5 ∧
      slice t 16 32 = binRender f.immediate.toNat 16) ∧
    (∀ (f : JInts) (s : State), f.valid = true → ∃ (t : Text) (w : Word),
      exec (.jEncodeBin f) s = .next { s with results := s.results ++ [.ok (.text t)] } ∧
      exec (.jPack f) s = .next { s with results := s.results ++ [.ok (.word w)] } ∧
      t.length = 32 ∧ t.all isBin = true ∧
      (∀ k < 32, t[k]? = some (if w.toNat.testBit (31 - k) then '1' else '0')) ∧
      slice t 0 6 = binRender f.opcode.toNat 6 ∧
      slice t 6 32 = binRender f.address.toNat 26)

/-- There are 28 ports; each takes exactly its input type and answers only its output type or its own errors. (R27.) -/
def Obligations.EveryPortTakesAndAnswersItsTypes : Prop :=
  (∀ p : Port, p.number < 28 ∧ Port.ofNumber p.number = some p) ∧
    (∀ n < 28, ∃ p : Port, p.number = n) ∧
    (∀ (p : Port) (x : Input), (∃ i, decode ⟨p, x⟩ = .ok i) ↔ mayTake p x = true) ∧
    (∀ p : Port, ∃ i : Instr, i.port = p) ∧
    ∀ (i : Instr) (s : State), ∃ r : Result, mayAnswer i.port r = true ∧
      exec (i) s = .next { s with results := s.results ++ [r] }

/-- The three error kinds have codes 1, 2 and 3, and each port raises exactly the kinds its row names. (R200, 60_exceptions.md section 1.) -/
def Obligations.ErrorKindsAndTheirPorts : Prop :=
  errorCode .malformedInput = 1 ∧ errorCode .fieldOutOfRange = 2 ∧ errorCode .integerOverflow = 3 ∧
    ∀ (p : Port) (k : ErrorKind), mayRaise p k = true ↔
      ∃ (i : Instr) (s : State) (e : Error), i.port = p ∧ kindOf e = k ∧
        exec (i) s = .next { s with results := s.results ++ [.err e] }

/-- A call returns Ok exactly when its input is valid, and one error otherwise. (R72, R75, R101, R204, R234.) -/
def Obligations.CallSucceedsExactlyOnValidInput : Prop :=
  ∀ (i : Instr) (s : State),
    ((∃ v, exec (i) s = .next { s with results := s.results ++ [.ok v] }) ↔ i.wellFormed = true) ∧
    ((∃ e, exec (i) s = .next { s with results := s.results ++ [.err e] }) ↔ i.wellFormed = false)

/-- The result of a call is a function of the call alone; nothing but that result is added to the state. (R20.) -/
def Obligations.ResultDependsOnTheCallAlone : Prop :=
  ∀ i : Instr, ∃ r : Result, ∀ s : State,
    exec (i) s = .next { s with results := s.results ++ [r] }

/-- A call that raises an error returns Err(e) and nothing else, and the next call is answered as if it had not happened. (R203, R205.) -/
def Obligations.ErrorReturnsOnlyTheError : Prop :=
  ∀ (i j : Instr) (s : State), i.wellFormed = false → ∃ (e : Error) (r : Result),
    exec i s = .next { calls := s.calls, results := s.results ++ [.err e] } ∧
    exec j { calls := s.calls, results := s.results ++ [.err e] } =
      .next { calls := s.calls, results := s.results ++ [.err e] ++ [r] } ∧
    exec j s = .next { calls := s.calls, results := s.results ++ [r] }

/-- Any sequence of calls is answered with each call's result as when it is made alone from reset. (R49, R20, R233; the model's choice in log entry 9.) -/
def Obligations.CallsAnsweredTogetherAsAlone : Prop :=
  ∀ (is : List Instr) (rs : List Result) (s : State),
    s.calls = is.map encode →
    List.Forall₂ (fun i r => exec i State.reset = .next { calls := [], results := [r] }) is rs →
    steps is.length s = .next { calls := [], results := s.results ++ rs }

/-- Calls made in another order get the same results. (R49, R232; the model's choice in log entry 9.) -/
def Obligations.OrderOfCallsChangesNoResult : Prop :=
  ∀ (is js : List Instr) (old : List Result), is.Perm js → ∃ rs qs : List Result,
    steps is.length { calls := is.map encode, results := old } = .next { calls := [], results := old ++ rs } ∧
    steps js.length { calls := js.map encode, results := old } = .next { calls := [], results := old ++ qs } ∧
    rs.length = is.length ∧ qs.length = js.length ∧ (is.zip rs).Perm (js.zip qs)

/-- From any state whose pending values are inputs of their ports, no number of steps stops the machine. (R27, R234, R235; the model's choice in log entries 1, 3 and 9.) -/
def Obligations.TypedRunNeverStops : Prop :=
  ∀ (s : State) (n : Nat), s.typed = true →
    ∃ s', steps n s = .next s' ∧ s'.typed = true

/-- Every step keeps every returned result legal: texts of a declared width and alphabet, errors with true payloads. (R109, R111, R201, R202, 40_serializers.md.) -/
def Obligations.StepKeepsResultsLegal : Prop :=
  ∀ s s' : State, s.legal = true → step s = .next s' → s'.legal = true

/-- After reset every returned result is legal and every pending value typed. (R230; the model's choice in log entry 1.) -/
def Obligations.ResetResultsLegal : Prop :=
  State.reset.legal = true ∧ State.reset.typed = true

/-- The R example's strings given to the decoder of the other hex convention. (R139, R67.) -/
def Obligations.CrossConventionExamples : Prop :=
  ∀ s : State,
    exec (.rEncodeFieldHex ⟨0, 8, 9, 10, 0, 32⟩) s = .next { s with results := s.results ++ [.ok (.text "0008090A0020".toList)] } ∧
    exec (.rEncodePackedHex ⟨0, 8, 9, 10, 0, 32⟩) s = .next { s with results := s.results ++ [.ok (.text "01095020".toList)] } ∧
    exec (.rDecodePackedHex "0008090A0020".toList) s = .next { s with results := s.results ++ [.err (.integerOverflow 34511388704)] } ∧
    exec (.rDecodeFieldHex "01095020".toList) s = .next { s with results := s.results ++ [.err (.malformedInput (.badLength (.exactly 12) 8))] } ∧
    exec (.rDecodePackedHex "000000000001".toList) s = .next { s with results := s.results ++ [.ok (.rFields ⟨0, 0, 0, 0, 0, 1⟩)] } ∧
    exec (.rDecodeFieldHex "000000000001".toList) s = .next { s with results := s.results ++ [.ok (.rFields ⟨0, 0, 0, 0, 0, 1⟩)] } ∧
    exec (.rDecodePackedHex "000000000100".toList) s = .next { s with results := s.results ++ [.ok (.rFields ⟨0, 0, 0, 0, 4, 0⟩)] } ∧
    exec (.rDecodeFieldHex "000000000100".toList) s = .next { s with results := s.results ++ [.ok (.rFields ⟨0, 0, 0, 0, 1, 0⟩)] }

/-- The J address is carried between the tuple and bits 25:0 unchanged; only its range is checked. (R43.) -/
def Obligations.JAddressIsCarriedUnchanged : Prop :=
  ∀ (o a : Int) (s : State), 0 ≤ o → o ≤ 63 →
    (0 ≤ a → a ≤ 67108863 → ∃ w : Word, (w.toNat : Int) % 2 ^ 26 = a ∧
      exec (.jPack ⟨o, a⟩) s = .next { s with results := s.results ++ [.ok (.word w)] } ∧
      ∀ w' : Word, (w'.toNat : Int) % 2 ^ 26 = a → ∃ F : JFields, (F.address.toNat : Int) = a ∧
        exec (.jUnpack w') s = .next { s with results := s.results ++ [.ok (.jFields F)] }) ∧
    (a < 0 ∨ 67108863 < a →
      exec (.jPack ⟨o, a⟩) s = .next { s with results := s.results ++ [.err (.fieldOutOfRange .address a 26)] })

/-- The I immediate is never sign-extended: negatives are out of range, and bit 15 counts as 32768. (R70, R25, R150.) -/
def Obligations.ImmediateIsUnsigned : Prop :=
  (∀ (w : Word) (s : State), ∃ F : IFields, F.immediate.toNat = w.toNat % 65536 ∧
      exec (.iUnpack w) s = .next { s with results := s.results ++ [.ok (.iFields F)] }) ∧
    ∀ (f : IInts) (s : State), inRange f.opcode 6 = true → inRange f.rs 5 = true → inRange f.rt 5 = true →
      f.immediate < 0 →
      exec (.iPack f) s = .next { s with results := s.results ++ [.err (.fieldOutOfRange .immediate f.immediate 16)] } ∧
      exec (.iEncodeBin f) s = .next { s with results := s.results ++ [.err (.fieldOutOfRange .immediate f.immediate 16)] } ∧
      exec (.iEncodePackedHex f) s = .next { s with results := s.results ++ [.err (.fieldOutOfRange .immediate f.immediate 16)] } ∧
      exec (.iEncodeFieldHex f) s = .next { s with results := s.results ++ [.err (.fieldOutOfRange .immediate f.immediate 16)] }
end

