-- ==== Sys2Proof/Laws/State.lean ====
section
/-! SUPPORT. One lemma per field per update of State. -/

namespace Sys2Proof.Machine

@[simp] theorem reset_calls : State.reset.calls = [] := rfl
@[simp] theorem reset_results : State.reset.results = [] := rfl

@[simp] theorem returnOk_calls (v : Output) (s : State) : (returnOk v s).calls = s.calls := rfl
@[simp] theorem returnOk_results (v : Output) (s : State) :
    (returnOk v s).results = s.results ++ [.ok v] := rfl

@[simp] theorem raiseError_calls (e : Error) (s : State) : (raiseError e s).calls = s.calls := rfl
@[simp] theorem raiseError_results (e : Error) (s : State) :
    (raiseError e s).results = s.results ++ [.err e] := rfl

@[simp] theorem present_calls (c : Call) (s : State) : (present c s).calls = c :: s.calls := rfl
@[simp] theorem present_results (c : Call) (s : State) : (present c s).results = s.results := rfl

end Sys2Proof.Machine
end

