-- ==== Sys2Proof/Laws/Ops.lean ====
section
/-! SUPPORT. What the shared operations over the interface can do, said once. -/

namespace Sys2Proof.Machine

/-- Taking a call gives the first one presented and leaves the rest, and nothing else changes. -/
theorem takeCall_eq_some {s s' : State} {c : Call} (h : takeCall s = some (c, s')) :
    s.calls = c :: s'.calls ∧ s'.results = s.results := by
  unfold takeCall at h
  split at h
  · cases h
  · rename_i hc
    simp only [Option.some.injEq, Prod.mk.injEq] at h
    obtain ⟨rfl, rfl⟩ := h
    exact ⟨hc, rfl⟩

/-- No call is taken exactly when none is presented. -/
theorem takeCall_eq_none {s : State} : takeCall s = none ↔ s.calls = [] := by
  unfold takeCall
  split <;> simp_all

@[simp] theorem takeCall_present (c : Call) (s : State) : takeCall (present c s) = some (c, s) := rfl

/-- The result a finished computation stands for (rule R12). -/
def resultOf : Except Error Output → Result
  | .ok v => .ok v
  | .error e => .err e

@[simp] theorem resultOf_ok (v : Output) : resultOf (.ok v) = .ok v := rfl
@[simp] theorem resultOf_error (e : Error) : resultOf (.error e) = .err e := rfl

/-- A call always ends in a next state that has one result more and is otherwise unchanged. -/
theorem respond_eq (r : Except Error Output) (s : State) :
    respond r s = .next { s with results := s.results ++ [resultOf r] } := by
  cases r <;> rfl

end Sys2Proof.Machine
end

