-- ==== Sys2Proof/Laws/Primitives.lean ====
section
/-! SUPPORT. What the primitives compute (rules R100 to R106, R113) and how rendering and reading,
placing and extracting undo each other. -/

namespace Sys2Proof.Machine

theorem inRange_iff (v : Int) (n : Nat) : inRange v n = true ↔ 0 ≤ v ∧ v < 2 ^ n := by
  simp [inRange]

/-- The two characters of `BIN` (rule R14). -/
theorem isBin_iff (c : Char) : isBin c = true ↔ c = '0' ∨ c = '1' := by simp [isBin]

/-! Binary digits. -/

@[simp] theorem binRender_length (v n : Nat) : (binRender v n).length = n := by simp [binRender]

/-- Rule R102, character by character. -/
theorem binRender_getElem? {v n k : Nat} (h : k < n) :
    (binRender v n)[k]? = some (if v.testBit (n - 1 - k) then '1' else '0') := by
  simp [binRender, h]

theorem binRender_all (v n : Nat) : (binRender v n).all isBin = true := by
  simp only [binRender, List.all_map, List.all_eq_true, Function.comp]
  intro k _
  cases v.testBit (n - 1 - k) <;> decide

@[simp] theorem binRender_zero (v : Nat) : binRender v 0 = [] := rfl

theorem binRender_succ (v n : Nat) :
    binRender v (n + 1) = (if v.testBit n then '1' else '0') :: binRender v n := by
  simp only [binRender, List.range_succ_eq_map, List.map_cons, List.map_map]
  congr 1
  apply List.map_congr_left
  intro k hk
  have : n + 1 - 1 - (k + 1) = n - 1 - k := by omega
  simp only [Function.comp, Nat.succ_eq_add_one, this]

/-- Rendering the high digits and then the low digits renders the whole number. -/
theorem binRender_add (v m n : Nat) :
    binRender v (m + n) = binRender (v / 2 ^ n) m ++ binRender v n := by
  induction m with
  | zero => simp
  | succ m ih =>
    rw [Nat.succ_add, binRender_succ, binRender_succ, ih, Nat.testBit_div_two_pow]
    simp [Nat.add_comm]

theorem binRender_mod (v n : Nat) : binRender (v % 2 ^ n) n = binRender v n := by
  unfold binRender
  apply List.map_congr_left
  intro k hk
  have : n - 1 - k < n := by simp at hk; omega
  simp [Nat.testBit_mod_two_pow, this]

theorem binValue_append (s t : Text) :
    binValue (s ++ t) = binValue s * 2 ^ t.length + binValue t := by
  induction s with
  | nil => simp [binValue]
  | cons c s ih =>
    simp only [List.cons_append, binValue, ih, List.length_append, pow_add]
    ring

theorem binValue_lt (t : Text) : binValue t < 2 ^ t.length := by
  induction t with
  | nil => simp [binValue]
  | cons c t ih =>
    simp only [binValue, List.length_cons, pow_succ]
    split <;> omega

/-- Rule R103: the sum of the digits at their places. -/
theorem binValue_eq_sum (t : Text) :
    binValue t = ((List.range t.length).map fun k =>
      (if t[k]? = some '1' then 1 else 0) * 2 ^ (t.length - 1 - k)).sum := by
  induction t with
  | nil => rfl
  | cons c t ih =>
    rw [binValue, ih, List.length_cons, List.range_succ_eq_map]
    simp [Function.comp_def, Nat.sub_sub, Nat.add_comm 1]

/-- Reading back a rendered number gives its low bits. -/
theorem binValue_binRender (v n : Nat) : binValue (binRender v n) = v % 2 ^ n := by
  induction n with
  | zero => simp [binValue, Nat.mod_one]
  | succ n ih =>
    rw [binRender_succ, binValue, ih, binRender_length, Nat.mod_pow_succ,
      Nat.testBit_eq_decide_div_mod_eq]
    rcases Nat.mod_two_eq_zero_or_one (v / 2 ^ n) with h | h <;> simp [h, Nat.add_comm]

theorem mul_two_pow_add_mod {d r n : Nat} (h : r < 2 ^ n) : (d * 2 ^ n + r) % 2 ^ n = r := by
  rw [Nat.add_comm, Nat.add_mul_mod_self_right, Nat.mod_eq_of_lt h]

theorem mul_two_pow_add_div {d r n : Nat} (h : r < 2 ^ n) : (d * 2 ^ n + r) / 2 ^ n = d := by
  rw [Nat.add_comm, Nat.add_mul_div_right _ _ (Nat.two_pow_pos n), Nat.div_eq_of_lt h, Nat.zero_add]

/-- The binary form is unique (rule R115). -/
theorem binRender_binValue (t : Text) (h : t.all isBin = true) :
    binRender (binValue t) t.length = t := by
  induction t with
  | nil => rfl
  | cons c t ih =>
    simp only [List.all_cons, Bool.and_eq_true] at h
    have hlt := binValue_lt t
    rw [List.length_cons, binRender_succ, ← binRender_mod, Nat.testBit_eq_decide_div_mod_eq,
      binValue, mul_two_pow_add_mod hlt, mul_two_pow_add_div hlt, ih h.2]
    have hc : c = '0' ∨ c = '1' := by simpa [isBin] using h.1
    rcases hc with rfl | rfl <;> simp

/-! Hex digits. -/

theorem hexDigitValue_hexDigit {d : Nat} (h : d < 16) : hexDigitValue (hexDigit d) = d := by
  revert d
  decide

theorem hexDigit_upper {d : Nat} (h : d < 16) : isHexUpper (hexDigit d) = true := by
  revert d
  decide

theorem isHex_of_upper {c : Char} (h : isHexUpper c = true) : isHex c = true := by
  simp [isHex, h]

/-- The codes of the 16 characters of `HEX_UPPER`. -/
theorem isHexUpper_iff (c : Char) :
    isHexUpper c = true ↔ (48 ≤ c.toNat ∧ c.toNat ≤ 57) ∨ (65 ≤ c.toNat ∧ c.toNat ≤ 70) := by
  simp [isHexUpper, Char.le_def, UInt32.le_iff_toNat_le]

theorem isHex_iff (c : Char) :
    isHex c = true ↔ (48 ≤ c.toNat ∧ c.toNat ≤ 57) ∨ (65 ≤ c.toNat ∧ c.toNat ≤ 70) ∨
      (97 ≤ c.toNat ∧ c.toNat ≤ 102) := by
  simp [isHex, isHexUpper_iff, Char.le_def, UInt32.le_iff_toNat_le, or_assoc]

theorem hexDigitValue_eq (c : Char) :
    hexDigitValue c = if 48 ≤ c.toNat ∧ c.toNat ≤ 57 then c.toNat - 48
      else if 65 ≤ c.toNat ∧ c.toNat ≤ 70 then c.toNat - 55 else c.toNat - 87 := by
  simp [hexDigitValue, Char.le_def, UInt32.le_iff_toNat_le]

theorem hexDigitValue_lt {c : Char} (h : isHex c = true) : hexDigitValue c < 16 := by
  rw [isHex_iff] at h
  rw [hexDigitValue_eq]
  split
  · omega
  · split <;> omega

theorem hexDigit_hexDigitValue {c : Char} (h : isHexUpper c = true) :
    hexDigit (hexDigitValue c) = c := by
  have table : ∀ n < 71, isHexUpper (Char.ofNat n) = true →
      hexDigit (hexDigitValue (Char.ofNat n)) = Char.ofNat n := by decide
  have hn : c.toNat < 71 := by
    rw [isHexUpper_iff] at h
    omega
  simpa using table c.toNat hn (by simpa using h)

@[simp] theorem hexRender_length (v n : Nat) : (hexRender v n).length = n := by simp [hexRender]

/-- Rule R105, character by character. -/
theorem hexRender_getElem? {v n k : Nat} (h : k < n) :
    (hexRender v n)[k]? = some (hexDigit (v / 16 ^ (n - 1 - k) % 16)) := by
  simp [hexRender, h]

theorem hexRender_all_upper (v n : Nat) : (hexRender v n).all isHexUpper = true := by
  simp only [hexRender, List.all_map, List.all_eq_true, Function.comp]
  intro k _
  exact hexDigit_upper (Nat.mod_lt _ (by decide))

theorem all_isHex_of_upper {t : Text} (h : t.all isHexUpper = true) : t.all isHex = true := by
  rw [List.all_eq_true] at h ⊢
  exact fun c hc => isHex_of_upper (h c hc)

theorem hexRender_all (v n : Nat) : (hexRender v n).all isHex = true :=
  all_isHex_of_upper (hexRender_all_upper v n)

@[simp] theorem hexRender_zero (v : Nat) : hexRender v 0 = [] := rfl

theorem hexRender_succ (v n : Nat) :
    hexRender v (n + 1) = hexDigit (v / 16 ^ n % 16) :: hexRender v n := by
  simp only [hexRender, List.range_succ_eq_map, List.map_cons, List.map_map]
  congr 1
  apply List.map_congr_left
  intro k hk
  have : n + 1 - 1 - (k + 1) = n - 1 - k := by omega
  simp only [Function.comp, Nat.succ_eq_add_one, this]

/-- Only the digits that are written matter. -/
theorem hexRender_mod (v n : Nat) : hexRender (v % 16 ^ n) n = hexRender v n := by
  unfold hexRender
  apply List.map_congr_left
  intro k hk
  have hk : k < n := by simpa using hk
  have hsplit : 16 ^ n = 16 ^ (n - 1 - k) * 16 ^ (k + 1) := by
    rw [← pow_add]
    congr 1
    omega
  rw [hsplit, Nat.mod_mul_right_div_self, Nat.mod_mod_of_dvd _ (dvd_pow_self 16 (Nat.succ_ne_zero k))]

theorem hexValue_append (s t : Text) :
    hexValue (s ++ t) = hexValue s * 16 ^ t.length + hexValue t := by
  induction s with
  | nil => simp [hexValue]
  | cons c s ih =>
    simp only [List.cons_append, hexValue, ih, List.length_append, pow_add]
    ring

theorem hexValue_lt {t : Text} (h : t.all isHex = true) : hexValue t < 16 ^ t.length := by
  induction t with
  | nil => simp [hexValue]
  | cons c t ih =>
    simp only [List.all_cons, Bool.and_eq_true] at h
    have h1 := hexDigitValue_lt h.1
    have h2 := ih h.2
    simp only [hexValue, List.length_cons, pow_succ]
    nlinarith

/-- Rule R106: the sum of the digits at their places. -/
theorem hexValue_eq_sum (t : Text) :
    hexValue t = ((List.range t.length).map fun k =>
      (t[k]?.map hexDigitValue).getD 0 * 16 ^ (t.length - 1 - k)).sum := by
  induction t with
  | nil => rfl
  | cons c t ih =>
    rw [hexValue, ih, List.length_cons, List.range_succ_eq_map]
    simp [Function.comp_def, Nat.sub_sub, Nat.add_comm 1]

/-- Reading back a rendered number gives it modulo what the digits hold. -/
theorem hexValue_hexRender (v n : Nat) : hexValue (hexRender v n) = v % 16 ^ n := by
  induction n with
  | zero => simp [hexValue, Nat.mod_one]
  | succ n ih =>
    rw [hexRender_succ, hexValue, ih, hexRender_length, Nat.mod_pow_succ,
      hexDigitValue_hexDigit (Nat.mod_lt _ (by decide))]
    ring

theorem hexValue_hexRender_of_lt {v n : Nat} (h : v < 16 ^ n) : hexValue (hexRender v n) = v := by
  rw [hexValue_hexRender, Nat.mod_eq_of_lt h]

theorem hexRender_cons {d r n : Nat} (hd : d < 16) (hr : r < 16 ^ n) :
    hexRender (d * 16 ^ n + r) (n + 1) = hexDigit d :: hexRender r n := by
  have hpos : 0 < 16 ^ n := by positivity
  rw [hexRender_succ, ← hexRender_mod (d * 16 ^ n + r) n, Nat.add_comm,
    Nat.add_mul_div_right _ _ hpos, Nat.div_eq_of_lt hr, Nat.zero_add, Nat.mod_eq_of_lt hd,
    Nat.add_mul_mod_self_right, Nat.mod_eq_of_lt hr]

/-- An upper-case text of a fixed length is the rendering of its value (rule R115). -/
theorem hexRender_hexValue {t : Text} (h : t.all isHexUpper = true) :
    hexRender (hexValue t) t.length = t := by
  induction t with
  | nil => rfl
  | cons c t ih =>
    simp only [List.all_cons, Bool.and_eq_true] at h
    have hlt := hexValue_lt (all_isHex_of_upper h.2)
    rw [List.length_cons, hexValue, hexRender_cons
      (hexDigitValue_lt (isHex_of_upper h.1)) hlt, hexDigit_hexDigitValue h.1, ih h.2]

/-! Slices. -/

/-- The slice at the length of what stands before it. -/
theorem slice_append_right (s g t : Text) (a b : Nat) (ha : s.length = a)
    (hb : s.length + g.length = b) : slice (s ++ g ++ t) a b = g := by
  subst ha hb
  simp [slice]

theorem slice_all {A : Char → Bool} {t : Text} (h : t.all A = true) (a b : Nat) :
    (slice t a b).all A = true := by
  rw [List.all_eq_true] at h ⊢
  exact fun c hc => h c (List.mem_of_mem_drop (List.mem_of_mem_take hc))

theorem slice_length {t : Text} {a b : Nat} (h : b ≤ t.length) : (slice t a b).length = b - a := by
  simp [slice]
  omega

/-- Two neighbouring slices make one. -/
theorem slice_append_slice (t : Text) {a b c : Nat} (hab : a ≤ b) (hbc : b ≤ c) :
    slice t a b ++ slice t b c = slice t a c := by
  unfold slice
  have : List.drop b t = List.drop (b - a) (List.drop a t) := by
    rw [List.drop_drop]
    congr 1
    omega
  rw [this, show c - a = (b - a) + (c - b) by omega, List.take_add]

theorem slice_all_of_length {t : Text} {n : Nat} (h : t.length = n) : slice t 0 n = t := by
  simp [slice, ← h]

/-! Placing and extracting fields. -/

/-- A word's field bits as a number (rule R69: shift right, then mask). -/
theorem rFields_toNat (w : Word) :
    (rFields w).opcode.toNat = w.toNat / 2 ^ 26 % 64 ∧ (rFields w).rs.toNat = w.toNat / 2 ^ 21 % 32 ∧
    (rFields w).rt.toNat = w.toNat / 2 ^ 16 % 32 ∧ (rFields w).rd.toNat = w.toNat / 2 ^ 11 % 32 ∧
    (rFields w).shamt.toNat = w.toNat / 2 ^ 6 % 32 ∧ (rFields w).funct.toNat = w.toNat % 64 := by
  have m63 (x : Nat) : x &&& 63 = x % 64 := Nat.and_two_pow_sub_one_eq_mod x 6
  have m31 (x : Nat) : x &&& 31 = x % 32 := Nat.and_two_pow_sub_one_eq_mod x 5
  simp [rFields, m63, m31, Nat.shiftRight_eq_div_pow]

theorem iFields_toNat (w : Word) :
    (iFields w).opcode.toNat = w.toNat / 2 ^ 26 % 64 ∧ (iFields w).rs.toNat = w.toNat / 2 ^ 21 % 32 ∧
    (iFields w).rt.toNat = w.toNat / 2 ^ 16 % 32 ∧ (iFields w).immediate.toNat = w.toNat % 65536 := by
  have m63 (x : Nat) : x &&& 63 = x % 64 := Nat.and_two_pow_sub_one_eq_mod x 6
  have m31 (x : Nat) : x &&& 31 = x % 32 := Nat.and_two_pow_sub_one_eq_mod x 5
  have m16 (x : Nat) : x &&& 65535 = x % 65536 := Nat.and_two_pow_sub_one_eq_mod x 16
  simp [iFields, m63, m31, m16, Nat.shiftRight_eq_div_pow]

theorem jFields_toNat (w : Word) :
    (jFields w).opcode.toNat = w.toNat / 2 ^ 26 % 64 ∧
    (jFields w).address.toNat = w.toNat % 67108864 := by
  have m63 (x : Nat) : x &&& 63 = x % 64 := Nat.and_two_pow_sub_one_eq_mod x 6
  have m26 (x : Nat) : x &&& 67108863 = x % 67108864 := Nat.and_two_pow_sub_one_eq_mod x 26
  simp [jFields, m63, m26, Nat.shiftRight_eq_div_pow]

/-- OR of a number placed above another is their sum: there is no carry (rule R68). -/
theorem shiftLeft_or (x : Nat) {y n : Nat} (h : y < 2 ^ n) : x <<< n ||| y = x * 2 ^ n + y := by
  rw [← Nat.shiftLeft_add_eq_or_of_lt h, Nat.shiftLeft_eq]

/-- A field placed inside the word loses nothing. -/
theorem place_toNat {k : Nat} (x : BitVec k) (n : Nat) (h : k + n ≤ 32) :
    (x.setWidth 32 <<< n).toNat = x.toNat <<< n := by
  have hx : x.toNat * 2 ^ n < 2 ^ 32 := calc
    x.toNat * 2 ^ n < 2 ^ k * 2 ^ n := Nat.mul_lt_mul_of_pos_right x.isLt (Nat.two_pow_pos n)
    _ = 2 ^ (k + n) := (pow_add 2 k n).symm
    _ ≤ 2 ^ 32 := Nat.pow_le_pow_right (by decide) h
  have hx' : x.toNat < 2 ^ 32 := lt_of_lt_of_le x.isLt (Nat.pow_le_pow_right (by decide) (by omega))
  rw [BitVec.toNat_shiftLeft, BitVec.toNat_setWidth, Nat.mod_eq_of_lt hx', Nat.shiftLeft_eq,
    Nat.mod_eq_of_lt hx]

theorem place_zero_toNat {k : Nat} (x : BitVec k) (h : k ≤ 32) : (x.setWidth 32).toNat = x.toNat := by
  simpa using place_toNat x 0 h

/-- The R word as a number: the sum of the fields at their places (rule R68). -/
theorem rWord_toNat (F : RFields) :
    (rWord F).toNat = F.opcode.toNat * 2 ^ 26 + (F.rs.toNat * 2 ^ 21 + (F.rt.toNat * 2 ^ 16 +
      (F.rd.toNat * 2 ^ 11 + (F.shamt.toNat * 2 ^ 6 + F.funct.toNat)))) := by
  have h1 := F.opcode.isLt
  have h2 := F.rs.isLt
  have h3 := F.rt.isLt
  have h4 := F.rd.isLt
  have h5 := F.shamt.isLt
  have h6 := F.funct.isLt
  simp only [rWord, BitVec.toNat_or, Nat.or_assoc]
  rw [place_toNat _ 26 (by decide), place_toNat _ 21 (by decide), place_toNat _ 16 (by decide),
    place_toNat _ 11 (by decide), place_toNat _ 6 (by decide), place_zero_toNat _ (by decide),
    shiftLeft_or (n := 6) _ (by omega), shiftLeft_or (n := 11) _ (by omega),
    shiftLeft_or (n := 16) _ (by omega), shiftLeft_or (n := 21) _ (by omega),
    shiftLeft_or (n := 26) _ (by omega)]

/-- The I word as a number (rule R68). -/
theorem iWord_toNat (F : IFields) :
    (iWord F).toNat = F.opcode.toNat * 2 ^ 26 + (F.rs.toNat * 2 ^ 21 + (F.rt.toNat * 2 ^ 16 +
      F.immediate.toNat)) := by
  have h1 := F.opcode.isLt
  have h2 := F.rs.isLt
  have h3 := F.rt.isLt
  have h4 := F.immediate.isLt
  simp only [iWord, BitVec.toNat_or, Nat.or_assoc]
  rw [place_toNat _ 26 (by decide), place_toNat _ 21 (by decide), place_toNat _ 16 (by decide),
    place_zero_toNat _ (by decide), shiftLeft_or (n := 16) _ (by omega),
    shiftLeft_or (n := 21) _ (by omega), shiftLeft_or (n := 26) _ (by omega)]

/-- The J word as a number (rule R68). -/
theorem jWord_toNat (F : JFields) :
    (jWord F).toNat = F.opcode.toNat * 2 ^ 26 + F.address.toNat := by
  have h1 := F.opcode.isLt
  have h2 := F.address.isLt
  simp only [jWord, BitVec.toNat_or]
  rw [place_toNat _ 26 (by decide), place_zero_toNat _ (by decide), shiftLeft_or _ (by omega)]

/-- The R word is the OR of the shifted fields, and nothing is lost (rules R68, R130). -/
theorem rWord_toNat_or (F : RFields) :
    (rWord F).toNat = F.opcode.toNat <<< 26 ||| F.rs.toNat <<< 21 ||| F.rt.toNat <<< 16 |||
      F.rd.toNat <<< 11 ||| F.shamt.toNat <<< 6 ||| F.funct.toNat := by
  simp only [rWord, BitVec.toNat_or]
  rw [place_toNat _ 26 (by decide), place_toNat _ 21 (by decide), place_toNat _ 16 (by decide),
    place_toNat _ 11 (by decide), place_toNat _ 6 (by decide), place_zero_toNat _ (by decide)]

/-- The I word is the OR of the shifted fields (rules R68, R150). -/
theorem iWord_toNat_or (F : IFields) :
    (iWord F).toNat = F.opcode.toNat <<< 26 ||| F.rs.toNat <<< 21 ||| F.rt.toNat <<< 16 |||
      F.immediate.toNat := by
  simp only [iWord, BitVec.toNat_or]
  rw [place_toNat _ 26 (by decide), place_toNat _ 21 (by decide), place_toNat _ 16 (by decide),
    place_zero_toNat _ (by decide)]

/-- The J word is the OR of the shifted fields (rules R68, R170). -/
theorem jWord_toNat_or (F : JFields) :
    (jWord F).toNat = F.opcode.toNat <<< 26 ||| F.address.toNat := by
  simp only [jWord, BitVec.toNat_or]
  rw [place_toNat _ 26 (by decide), place_zero_toNat _ (by decide)]

/-! The fields of a word, and the word of the fields, undo each other (rules R72, R138, R158, R178). -/

theorem rFields_ext {F G : RFields} (h1 : F.opcode.toNat = G.opcode.toNat)
    (h2 : F.rs.toNat = G.rs.toNat) (h3 : F.rt.toNat = G.rt.toNat) (h4 : F.rd.toNat = G.rd.toNat)
    (h5 : F.shamt.toNat = G.shamt.toNat) (h6 : F.funct.toNat = G.funct.toNat) : F = G := by
  cases F
  cases G
  simp_all [BitVec.toNat_inj]

theorem iFields_ext {F G : IFields} (h1 : F.opcode.toNat = G.opcode.toNat)
    (h2 : F.rs.toNat = G.rs.toNat) (h3 : F.rt.toNat = G.rt.toNat)
    (h4 : F.immediate.toNat = G.immediate.toNat) : F = G := by
  cases F
  cases G
  simp_all [BitVec.toNat_inj]

theorem jFields_ext {F G : JFields} (h1 : F.opcode.toNat = G.opcode.toNat)
    (h2 : F.address.toNat = G.address.toNat) : F = G := by
  cases F
  cases G
  simp_all [BitVec.toNat_inj]

theorem rFields_rWord (F : RFields) : rFields (rWord F) = F := by
  obtain ⟨h1, h2, h3, h4, h5, h6⟩ := rFields_toNat (rWord F)
  have b1 := F.opcode.isLt
  have b2 := F.rs.isLt
  have b3 := F.rt.isLt
  have b4 := F.rd.isLt
  have b5 := F.shamt.isLt
  have b6 := F.funct.isLt
  rw [rWord_toNat] at h1 h2 h3 h4 h5 h6
  refine rFields_ext (h1.trans ?_) (h2.trans ?_) (h3.trans ?_) (h4.trans ?_) (h5.trans ?_) (h6.trans ?_) <;> clear h1 h2 h3 h4 h5 h6 <;> omega

theorem iFields_iWord (F : IFields) : iFields (iWord F) = F := by
  obtain ⟨h1, h2, h3, h4⟩ := iFields_toNat (iWord F)
  have b1 := F.opcode.isLt
  have b2 := F.rs.isLt
  have b3 := F.rt.isLt
  have b4 := F.immediate.isLt
  rw [iWord_toNat] at h1 h2 h3 h4
  refine iFields_ext (h1.trans ?_) (h2.trans ?_) (h3.trans ?_) (h4.trans ?_) <;> clear h1 h2 h3 h4 <;> omega

theorem jFields_jWord (F : JFields) : jFields (jWord F) = F := by
  obtain ⟨h1, h2⟩ := jFields_toNat (jWord F)
  have b1 := F.opcode.isLt
  have b2 := F.address.isLt
  rw [jWord_toNat] at h1 h2
  refine jFields_ext (h1.trans ?_) (h2.trans ?_) <;> clear h1 h2 <;> omega

theorem rWord_rFields (w : Word) : rWord (rFields w) = w := by
  have hw := w.isLt
  obtain ⟨h1, h2, h3, h4, h5, h6⟩ := rFields_toNat w
  apply BitVec.eq_of_toNat_eq
  rw [rWord_toNat, h1, h2, h3, h4, h5, h6]
  omega

theorem iWord_iFields (w : Word) : iWord (iFields w) = w := by
  have hw := w.isLt
  obtain ⟨h1, h2, h3, h4⟩ := iFields_toNat w
  apply BitVec.eq_of_toNat_eq
  rw [iWord_toNat, h1, h2, h3, h4]
  omega

theorem jWord_jFields (w : Word) : jWord (jFields w) = w := by
  have hw := w.isLt
  obtain ⟨h1, h2⟩ := jFields_toNat w
  apply BitVec.eq_of_toNat_eq
  rw [jWord_toNat, h1, h2]
  omega

/-! Tuples of integers and tuples of fields. -/

theorem ofInt_toNat {v : Int} {n : Nat} (h : inRange v n = true) :
    ((BitVec.ofInt n v).toNat : Int) = v := by
  rw [inRange_iff] at h
  rw [BitVec.toNat_ofInt]
  have : (((2 ^ n : Nat) : Int)) = 2 ^ n := by push_cast; rfl
  rw [this, Int.emod_eq_of_lt h.1 h.2]
  exact Int.toNat_of_nonneg h.1

theorem ofInt_toNat_eq {v : Int} {n : Nat} (h : inRange v n = true) :
    (BitVec.ofInt n v).toNat = v.toNat := by
  have := ofInt_toNat h
  omega

theorem inRange_toNat {n : Nat} (x : BitVec n) : inRange (x.toNat : Int) n = true := by
  rw [inRange_iff]
  exact ⟨Int.natCast_nonneg _, by exact_mod_cast x.isLt⟩

@[simp] theorem rOfInts_rToInts (F : RFields) : rOfInts (rToInts F) = F := by
  simp [rOfInts, rToInts]

@[simp] theorem iOfInts_iToInts (F : IFields) : iOfInts (iToInts F) = F := by
  simp [iOfInts, iToInts]

@[simp] theorem jOfInts_jToInts (F : JFields) : jOfInts (jToInts F) = F := by
  simp [jOfInts, jToInts]

end Sys2Proof.Machine
end

