-- ==== Sys2Proof/Laws/Operands.lean ====
section
/-! SUPPORT. What each check on a call's input does, said once (rules R101, R107, R108, R112, R114,
R204), with the few equations of `Except` they are read through. -/

namespace Sys2Proof.Machine

section Except

variable {ε α β : Type}

@[simp] theorem except_ok_bind (a : α) (f : α → Except ε β) : (Except.ok a >>= f) = f a := rfl
@[simp] theorem except_error_bind (e : ε) (f : α → Except ε β) :
    (Except.error e >>= f) = .error e := rfl
@[simp] theorem except_pure (a : α) : (pure a : Except ε α) = .ok a := rfl
@[simp] theorem except_map_ok (g : α → β) (a : α) : (Except.ok a : Except ε α).map g = .ok (g a) := rfl
@[simp] theorem except_map_error (g : α → β) (e : ε) :
    (Except.error e : Except ε α).map g = .error e := rfl

end Except

/-- Rule R107. -/
theorem checkLength_eq (t : Text) (n : Nat) :
    checkLength t n = if t.length = n then .ok ()
      else .error (.malformedInput (.badLength (.exactly n) t.length)) := rfl

theorem checkAlphabetFrom_ok {A : Alphabet} {t : Text} (h : t.all (inAlphabet A) = true) (k : Nat) :
    checkAlphabetFrom A k t = .ok () := by
  induction t generalizing k with
  | nil => rfl
  | cons c t ih =>
    simp only [List.all_cons, Bool.and_eq_true] at h
    simp only [checkAlphabetFrom, h.1, if_true]
    exact ih h.2 (k + 1)

theorem checkAlphabetFrom_error {A : Alphabet} {t : Text} {c : Char} {j : Nat}
    (hc : t[j]? = some c) (hbad : inAlphabet A c = false)
    (hfirst : ∀ i d, i < j → t[i]? = some d → inAlphabet A d = true) (k : Nat) :
    checkAlphabetFrom A k t = .error (.malformedInput (.badChar (k + j) c)) := by
  induction t generalizing j k with
  | nil => simp at hc
  | cons a t ih =>
    cases j with
    | zero =>
      simp only [List.getElem?_cons_zero, Option.some.injEq] at hc
      simp [checkAlphabetFrom, hc, hbad]
    | succ j =>
      have ha : inAlphabet A a = true := hfirst 0 a (by omega) rfl
      simp only [checkAlphabetFrom, ha, if_true]
      have := ih (j := j) (by simpa using hc) (fun i d hi hd => hfirst (i + 1) d (by omega) (by simpa using hd)) (k + 1)
      rw [this]
      congr 3
      omega

/-- Rule R108: a text of the alphabet passes. -/
theorem checkAlphabet_ok {A : Alphabet} {t : Text} (h : t.all (inAlphabet A) = true) :
    checkAlphabet t A = .ok () := checkAlphabetFrom_ok h 0

/-- Rule R108: the first character outside the alphabet is reported. -/
theorem checkAlphabet_error {A : Alphabet} {t : Text} {c : Char} {j : Nat} (hc : t[j]? = some c)
    (hbad : inAlphabet A c = false)
    (hfirst : ∀ i d, i < j → t[i]? = some d → inAlphabet A d = true) :
    checkAlphabet t A = .error (.malformedInput (.badChar j c)) := by
  simpa [checkAlphabet] using checkAlphabetFrom_error hc hbad hfirst 0

/-- Rule R108 with the characters before the reported one taken together. -/
theorem checkAlphabet_first {A : Alphabet} {t : Text} {c : Char} {j : Nat} (hc : t[j]? = some c)
    (hbad : inAlphabet A c = false) (hfirst : (t.take j).all (inAlphabet A) = true) :
    checkAlphabet t A = .error (.malformedInput (.badChar j c)) := by
  refine checkAlphabet_error hc hbad fun i d hi hd => ?_
  rw [List.all_eq_true] at hfirst
  refine hfirst d (List.mem_of_getElem? (i := i) ?_)
  rw [List.getElem?_take_of_lt hi]
  exact hd

/-- A text is of an alphabet, or it has a first character outside it. -/
theorem all_or_first_bad (p : Char → Bool) (t : Text) :
    t.all p = true ∨ ∃ (j : Nat) (c : Char), t[j]? = some c ∧ p c = false ∧
      ∀ (i : Nat) (d : Char), i < j → t[i]? = some d → p d = true := by
  induction t with
  | nil => exact .inl rfl
  | cons a t ih =>
    cases ha : p a with
    | false => exact .inr ⟨0, a, rfl, ha, fun i d hi => by omega⟩
    | true =>
      rcases ih with h | ⟨j, c, hc, hb, hf⟩
      · exact .inl (by simp [ha, h])
      · refine .inr ⟨j + 1, c, by simpa using hc, hb, fun i d hi hd => ?_⟩
        cases i with
        | zero => simp only [List.getElem?_cons_zero, Option.some.injEq] at hd; exact hd ▸ ha
        | succ i => exact hf i d (by omega) (by simpa using hd)

/-- Rule R101 in field order: the first field out of range is reported, else the tuple passes. -/
theorem rCheck_eq (f : RInts) :
    rCheck f = match firstOutOfRange (rNamed f) with
      | some (name, v) => .error (.fieldOutOfRange name v (Config.width name))
      | none => .ok (rOfInts f) := by
  simp only [rCheck, checkField, firstOutOfRange, rNamed, List.find?, Config.width]
  cases inRange f.opcode 6
  · rfl
  cases inRange f.rs 5
  · rfl
  cases inRange f.rt 5
  · rfl
  cases inRange f.rd 5
  · rfl
  cases inRange f.shamt 5
  · rfl
  cases inRange f.funct 6 <;> rfl

theorem iCheck_eq (f : IInts) :
    iCheck f = match firstOutOfRange (iNamed f) with
      | some (name, v) => .error (.fieldOutOfRange name v (Config.width name))
      | none => .ok (iOfInts f) := by
  simp only [iCheck, checkField, firstOutOfRange, iNamed, List.find?, Config.width]
  cases inRange f.opcode 6
  · rfl
  cases inRange f.rs 5
  · rfl
  cases inRange f.rt 5
  · rfl
  cases inRange f.immediate 16 <;> rfl

theorem jCheck_eq (f : JInts) :
    jCheck f = match firstOutOfRange (jNamed f) with
      | some (name, v) => .error (.fieldOutOfRange name v (Config.width name))
      | none => .ok (jOfInts f) := by
  simp only [jCheck, checkField, firstOutOfRange, jNamed, List.find?, Config.width]
  cases inRange f.opcode 6
  · rfl
  cases inRange f.address 26 <;> rfl

/-- A tuple is valid exactly when no field is out of range. -/
theorem rValid_iff (f : RInts) : f.valid = true ↔ firstOutOfRange (rNamed f) = none := by
  simp [RInts.valid, firstOutOfRange, rNamed, Config.width, and_assoc]

theorem iValid_iff (f : IInts) : f.valid = true ↔ firstOutOfRange (iNamed f) = none := by
  simp [IInts.valid, firstOutOfRange, iNamed, Config.width, and_assoc]

theorem jValid_iff (f : JInts) : f.valid = true ↔ firstOutOfRange (jNamed f) = none := by
  simp [JInts.valid, firstOutOfRange, jNamed, Config.width]

theorem rToInts_valid (F : RFields) : (rToInts F).valid = true := by
  simp [RInts.valid, rToInts, inRange_toNat]

theorem iToInts_valid (F : IFields) : (iToInts F).valid = true := by
  simp [IInts.valid, iToInts, inRange_toNat]

theorem jToInts_valid (F : JFields) : (jToInts F).valid = true := by
  simp [JInts.valid, jToInts, inRange_toNat]

theorem rToInts_rOfInts {f : RInts} (h : f.valid = true) : rToInts (rOfInts f) = f := by
  simp only [RInts.valid, Bool.and_eq_true, and_assoc] at h
  obtain ⟨h1, h2, h3, h4, h5, h6⟩ := h
  simp only [rToInts, rOfInts, ofInt_toNat h1, ofInt_toNat h2, ofInt_toNat h3, ofInt_toNat h4,
    ofInt_toNat h5, ofInt_toNat h6]

theorem iToInts_iOfInts {f : IInts} (h : f.valid = true) : iToInts (iOfInts f) = f := by
  simp only [IInts.valid, Bool.and_eq_true, and_assoc] at h
  obtain ⟨h1, h2, h3, h4⟩ := h
  simp only [iToInts, iOfInts, ofInt_toNat h1, ofInt_toNat h2, ofInt_toNat h3, ofInt_toNat h4]

theorem jToInts_jOfInts {f : JInts} (h : f.valid = true) : jToInts (jOfInts f) = f := by
  simp only [JInts.valid, Bool.and_eq_true] at h
  simp only [jToInts, jOfInts, ofInt_toNat h.1, ofInt_toNat h.2]

theorem rCheck_rToInts (F : RFields) : rCheck (rToInts F) = .ok F := by
  rw [rCheck_eq, (rValid_iff _).1 (rToInts_valid F), rOfInts_rToInts]

theorem iCheck_iToInts (F : IFields) : iCheck (iToInts F) = .ok F := by
  rw [iCheck_eq, (iValid_iff _).1 (iToInts_valid F), iOfInts_iToInts]

theorem jCheck_jToInts (F : JFields) : jCheck (jToInts F) = .ok F := by
  rw [jCheck_eq, (jValid_iff _).1 (jToInts_valid F), jOfInts_jToInts]

/-- Rule R112, its three errors and its value. -/
theorem hexToWord_eq (t : Text) :
    hexToWord t = if t.length = 0 then .error (.malformedInput (.badLength .atLeastOne 0))
      else checkAlphabet t .hex >>= fun _ =>
        if 2 ^ 32 ≤ hexValue t then .error (.integerOverflow (hexValue t))
        else .ok (BitVec.ofNat 32 (hexValue t)) := by
  unfold hexToWord
  by_cases h0 : t.length = 0
  · simp [h0]
  · simp only [h0, if_false]
    cases checkAlphabet t .hex with
    | error e => rfl
    | ok _ => simp

/-- No group is too wide exactly when every group fits its field (rule R114). -/
theorem firstTooWide_eq_none {gs : List (FieldName × Nat)} :
    firstTooWide gs = none ↔ ∀ g ∈ gs, g.2 < 2 ^ Config.width g.1 := by
  simp only [firstTooWide, List.find?_eq_none, decide_eq_true_eq, Nat.not_le]

end Sys2Proof.Machine
end

