-- ==== Sys2Proof/Laws/Texts.lean ====
section
/-! SUPPORT. The layout texts: the binary text of a tuple is the binary text of its word (rules R64,
R132, R152, R172), and a text of either form is cut back into the tuple it writes (rules R138, R158,
R178). -/

namespace Sys2Proof.Machine

theorem fhRender_upper (v n : Nat) : (fhRender v n).all isHexUpper = true := hexRender_all_upper _ _

/-- A field's digits hold every value of the field (rule R113). -/
theorem hexValue_fhRender {n : Nat} (x : BitVec n) (h : n ≤ 26) :
    hexValue (fhRender x.toNat n) = x.toNat := by
  have hn : 2 ^ n ≤ 16 ^ fhDigits n := by
    interval_cases n <;> decide
  exact hexValue_hexRender_of_lt (lt_of_lt_of_le x.isLt hn)

/-- Binary texts written one after another are the text of the number they make together. -/
theorem binRender_append {x y m n : Nat} (h : y < 2 ^ n) :
    binRender x m ++ binRender y n = binRender (x * 2 ^ n + y) (m + n) := by
  rw [binRender_add, mul_two_pow_add_div h, ← binRender_mod (x * 2 ^ n + y), mul_two_pow_add_mod h]

/-- The R binary text is the text of the packed word (rule R64). -/
theorem rBinText_eq (F : RFields) : rBinText F = binRender (rWord F).toNat 32 := by
  have h1 := F.rs.isLt
  have h2 := F.rt.isLt
  have h3 := F.rd.isLt
  have h4 := F.shamt.isLt
  have h5 := F.funct.isLt
  rw [rBinText, binRender_append h1, binRender_append h2, binRender_append h3, binRender_append h4, binRender_append h5, rWord_toNat]
  exact congrArg₂ binRender (by omega) rfl

theorem rBinText_length (F : RFields) : (rBinText F).length = 32 := by
  rw [rBinText_eq, binRender_length]

theorem rBinText_all (F : RFields) : (rBinText F).all isBin = true := by
  rw [rBinText_eq]
  exact binRender_all _ _

/-- The slices a binary decoder reads are the fields' own digits (rules R61 to R63). -/
theorem rBinText_cut (F : RFields) :
    binValue (slice (rBinText F) 0 6) = F.opcode.toNat ∧
    binValue (slice (rBinText F) 6 11) = F.rs.toNat ∧
    binValue (slice (rBinText F) 11 16) = F.rt.toNat ∧
    binValue (slice (rBinText F) 16 21) = F.rd.toNat ∧
    binValue (slice (rBinText F) 21 26) = F.shamt.toNat ∧
    binValue (slice (rBinText F) 26 32) = F.funct.toNat := by
  have h0 := Nat.mod_eq_of_lt F.opcode.isLt
  have h1 := Nat.mod_eq_of_lt F.rs.isLt
  have h2 := Nat.mod_eq_of_lt F.rt.isLt
  have h3 := Nat.mod_eq_of_lt F.rd.isLt
  have h4 := Nat.mod_eq_of_lt F.shamt.isLt
  have h5 := Nat.mod_eq_of_lt F.funct.isLt
  refine ⟨?_, ?_, ?_, ?_, ?_, ?_⟩ <;>
    simp [rBinText, slice, List.drop_append, List.drop_eq_nil_of_le,
      List.take_of_length_le, binValue_binRender, h0, h1, h2, h3, h4, h5]

theorem rFieldHexText_length (F : RFields) : (rFieldHexText F).length = 12 := by
  simp [rFieldHexText, fhRender, fhDigits]

theorem rFieldHexText_upper (F : RFields) : (rFieldHexText F).all isHexUpper = true := by
  simp only [rFieldHexText, List.all_append, fhRender_upper, Bool.and_self]

/-- The groups a field-hex decoder reads are the fields' own digits (rules R61 to R63). -/
theorem rFieldHexText_cut (F : RFields) :
    slice (rFieldHexText F) 0 2 = fhRender F.opcode.toNat 6 ∧
    slice (rFieldHexText F) 2 4 = fhRender F.rs.toNat 5 ∧
    slice (rFieldHexText F) 4 6 = fhRender F.rt.toNat 5 ∧
    slice (rFieldHexText F) 6 8 = fhRender F.rd.toNat 5 ∧
    slice (rFieldHexText F) 8 10 = fhRender F.shamt.toNat 5 ∧
    slice (rFieldHexText F) 10 12 = fhRender F.funct.toNat 6 := by
  refine ⟨?_, ?_, ?_, ?_, ?_, ?_⟩ <;>
    simp [rFieldHexText, slice, List.drop_append, List.drop_eq_nil_of_le,
      List.take_of_length_le, fhRender, fhDigits]

theorem rOfFieldHex_text (F : RFields) : rOfFieldHex (rFieldHexText F) = F := by
  obtain ⟨h0, h1, h2, h3, h4, h5⟩ := rFieldHexText_cut F
  simp only [rOfFieldHex, h0, h1, h2, h3, h4, h5,
    hexValue_fhRender F.opcode (show 6 ≤ 26 by decide),
    hexValue_fhRender F.rs (show 5 ≤ 26 by decide),
    hexValue_fhRender F.rt (show 5 ≤ 26 by decide),
    hexValue_fhRender F.rd (show 5 ≤ 26 by decide),
    hexValue_fhRender F.shamt (show 5 ≤ 26 by decide),
    hexValue_fhRender F.funct (show 6 ≤ 26 by decide),
    BitVec.ofNat_toNat, BitVec.setWidth_eq]

/-- An upper-case field-hex text whose groups fit is the text of the tuple it writes. -/
theorem rFieldHexText_ofFieldHex {t : Text} (hv : rFieldHexValid t = true) (hu : upperOnly t = true) :
    rFieldHexText (rOfFieldHex t) = t := by
  simp only [rFieldHexValid, groupFits, Bool.and_eq_true, decide_eq_true_eq, beq_iff_eq, and_assoc] at hv
  obtain ⟨hl, -, h0, h1, h2, h3, h4, h5⟩ := hv
  have cut (a b n : Nat) (hb : b ≤ t.length) (hf : hexValue (slice t a b) < 2 ^ n)
      (hn : fhDigits n = b - a) :
      fhRender (BitVec.ofNat n (hexValue (slice t a b))).toNat n = slice t a b := by
    rw [BitVec.toNat_ofNat, Nat.mod_eq_of_lt hf, fhRender, hn, ← slice_length hb]
    exact hexRender_hexValue (slice_all hu a b)
  simp only [rFieldHexText, rOfFieldHex]
  rw [cut 0 2 6 (by omega) h0 rfl,
    cut 2 4 5 (by omega) h1 rfl,
    cut 4 6 5 (by omega) h2 rfl,
    cut 6 8 5 (by omega) h3 rfl,
    cut 8 10 5 (by omega) h4 rfl,
    cut 10 12 6 (by omega) h5 rfl,
    slice_append_slice t (show 0 ≤ 2 by decide) (show 2 ≤ 4 by decide),
    slice_append_slice t (show 0 ≤ 4 by decide) (show 4 ≤ 6 by decide),
    slice_append_slice t (show 0 ≤ 6 by decide) (show 6 ≤ 8 by decide),
    slice_append_slice t (show 0 ≤ 8 by decide) (show 8 ≤ 10 by decide),
    slice_append_slice t (show 0 ≤ 10 by decide) (show 10 ≤ 12 by decide),
    slice_all_of_length hl]

/-- The I binary text is the text of the packed word (rule R64). -/
theorem iBinText_eq (F : IFields) : iBinText F = binRender (iWord F).toNat 32 := by
  have h1 := F.rs.isLt
  have h2 := F.rt.isLt
  have h3 := F.immediate.isLt
  rw [iBinText, binRender_append h1, binRender_append h2, binRender_append h3, iWord_toNat]
  exact congrArg₂ binRender (by omega) rfl

theorem iBinText_length (F : IFields) : (iBinText F).length = 32 := by
  rw [iBinText_eq, binRender_length]

theorem iBinText_all (F : IFields) : (iBinText F).all isBin = true := by
  rw [iBinText_eq]
  exact binRender_all _ _

/-- The slices a binary decoder reads are the fields' own digits (rules R61 to R63). -/
theorem iBinText_cut (F : IFields) :
    binValue (slice (iBinText F) 0 6) = F.opcode.toNat ∧
    binValue (slice (iBinText F) 6 11) = F.rs.toNat ∧
    binValue (slice (iBinText F) 11 16) = F.rt.toNat ∧
    binValue (slice (iBinText F) 16 32) = F.immediate.toNat := by
  have h0 := Nat.mod_eq_of_lt F.opcode.isLt
  have h1 := Nat.mod_eq_of_lt F.rs.isLt
  have h2 := Nat.mod_eq_of_lt F.rt.isLt
  have h3 := Nat.mod_eq_of_lt F.immediate.isLt
  refine ⟨?_, ?_, ?_, ?_⟩ <;>
    simp [iBinText, slice, List.drop_append, List.drop_eq_nil_of_le,
      List.take_of_length_le, binValue_binRender, h0, h1, h2, h3]

theorem iFieldHexText_length (F : IFields) : (iFieldHexText F).length = 10 := by
  simp [iFieldHexText, fhRender, fhDigits]

theorem iFieldHexText_upper (F : IFields) : (iFieldHexText F).all isHexUpper = true := by
  simp only [iFieldHexText, List.all_append, fhRender_upper, Bool.and_self]

/-- The groups a field-hex decoder reads are the fields' own digits (rules R61 to R63). -/
theorem iFieldHexText_cut (F : IFields) :
    slice (iFieldHexText F) 0 2 = fhRender F.opcode.toNat 6 ∧
    slice (iFieldHexText F) 2 4 = fhRender F.rs.toNat 5 ∧
    slice (iFieldHexText F) 4 6 = fhRender F.rt.toNat 5 ∧
    slice (iFieldHexText F) 6 10 = fhRender F.immediate.toNat 16 := by
  refine ⟨?_, ?_, ?_, ?_⟩ <;>
    simp [iFieldHexText, slice, List.drop_append, List.drop_eq_nil_of_le,
      List.take_of_length_le, fhRender, fhDigits]

theorem iOfFieldHex_text (F : IFields) : iOfFieldHex (iFieldHexText F) = F := by
  obtain ⟨h0, h1, h2, h3⟩ := iFieldHexText_cut F
  simp only [iOfFieldHex, h0, h1, h2, h3,
    hexValue_fhRender F.opcode (show 6 ≤ 26 by decide),
    hexValue_fhRender F.rs (show 5 ≤ 26 by decide),
    hexValue_fhRender F.rt (show 5 ≤ 26 by decide),
    hexValue_fhRender F.immediate (show 16 ≤ 26 by decide),
    BitVec.ofNat_toNat, BitVec.setWidth_eq]

/-- An upper-case field-hex text whose groups fit is the text of the tuple it writes. -/
theorem iFieldHexText_ofFieldHex {t : Text} (hv : iFieldHexValid t = true) (hu : upperOnly t = true) :
    iFieldHexText (iOfFieldHex t) = t := by
  simp only [iFieldHexValid, groupFits, Bool.and_eq_true, decide_eq_true_eq, beq_iff_eq, and_assoc] at hv
  obtain ⟨hl, -, h0, h1, h2, h3⟩ := hv
  have cut (a b n : Nat) (hb : b ≤ t.length) (hf : hexValue (slice t a b) < 2 ^ n)
      (hn : fhDigits n = b - a) :
      fhRender (BitVec.ofNat n (hexValue (slice t a b))).toNat n = slice t a b := by
    rw [BitVec.toNat_ofNat, Nat.mod_eq_of_lt hf, fhRender, hn, ← slice_length hb]
    exact hexRender_hexValue (slice_all hu a b)
  simp only [iFieldHexText, iOfFieldHex]
  rw [cut 0 2 6 (by omega) h0 rfl,
    cut 2 4 5 (by omega) h1 rfl,
    cut 4 6 5 (by omega) h2 rfl,
    cut 6 10 16 (by omega) h3 rfl,
    slice_append_slice t (show 0 ≤ 2 by decide) (show 2 ≤ 4 by decide),
    slice_append_slice t (show 0 ≤ 4 by decide) (show 4 ≤ 6 by decide),
    slice_append_slice t (show 0 ≤ 6 by decide) (show 6 ≤ 10 by decide),
    slice_all_of_length hl]

/-- The J binary text is the text of the packed word (rule R64). -/
theorem jBinText_eq (F : JFields) : jBinText F = binRender (jWord F).toNat 32 := by
  have h1 := F.address.isLt
  rw [jBinText, binRender_append h1, jWord_toNat]

theorem jBinText_length (F : JFields) : (jBinText F).length = 32 := by
  rw [jBinText_eq, binRender_length]

theorem jBinText_all (F : JFields) : (jBinText F).all isBin = true := by
  rw [jBinText_eq]
  exact binRender_all _ _

/-- The slices a binary decoder reads are the fields' own digits (rules R61 to R63). -/
theorem jBinText_cut (F : JFields) :
    binValue (slice (jBinText F) 0 6) = F.opcode.toNat ∧
    binValue (slice (jBinText F) 6 32) = F.address.toNat := by
  have h0 := Nat.mod_eq_of_lt F.opcode.isLt
  have h1 := Nat.mod_eq_of_lt F.address.isLt
  refine ⟨?_, ?_⟩ <;>
    simp [jBinText, slice, List.drop_append,
      List.take_of_length_le, binValue_binRender, h0, h1]

theorem jFieldHexText_length (F : JFields) : (jFieldHexText F).length = 9 := by
  simp [jFieldHexText, fhRender, fhDigits]

theorem jFieldHexText_upper (F : JFields) : (jFieldHexText F).all isHexUpper = true := by
  simp only [jFieldHexText, List.all_append, fhRender_upper, Bool.and_self]

/-- The groups a field-hex decoder reads are the fields' own digits (rules R61 to R63). -/
theorem jFieldHexText_cut (F : JFields) :
    slice (jFieldHexText F) 0 2 = fhRender F.opcode.toNat 6 ∧
    slice (jFieldHexText F) 2 9 = fhRender F.address.toNat 26 := by
  refine ⟨?_, ?_⟩ <;>
    simp [jFieldHexText, slice, List.drop_append,
      List.take_of_length_le, fhRender, fhDigits]

theorem jOfFieldHex_text (F : JFields) : jOfFieldHex (jFieldHexText F) = F := by
  obtain ⟨h0, h1⟩ := jFieldHexText_cut F
  simp only [jOfFieldHex, h0, h1,
    hexValue_fhRender F.opcode (show 6 ≤ 26 by decide),
    hexValue_fhRender F.address (show 26 ≤ 26 by decide),
    BitVec.ofNat_toNat, BitVec.setWidth_eq]

/-- An upper-case field-hex text whose groups fit is the text of the tuple it writes. -/
theorem jFieldHexText_ofFieldHex {t : Text} (hv : jFieldHexValid t = true) (hu : upperOnly t = true) :
    jFieldHexText (jOfFieldHex t) = t := by
  simp only [jFieldHexValid, groupFits, Bool.and_eq_true, decide_eq_true_eq, beq_iff_eq, and_assoc] at hv
  obtain ⟨hl, -, h0, h1⟩ := hv
  have cut (a b n : Nat) (hb : b ≤ t.length) (hf : hexValue (slice t a b) < 2 ^ n)
      (hn : fhDigits n = b - a) :
      fhRender (BitVec.ofNat n (hexValue (slice t a b))).toNat n = slice t a b := by
    rw [BitVec.toNat_ofNat, Nat.mod_eq_of_lt hf, fhRender, hn, ← slice_length hb]
    exact hexRender_hexValue (slice_all hu a b)
  simp only [jFieldHexText, jOfFieldHex]
  rw [cut 0 2 6 (by omega) h0 rfl,
    cut 2 9 26 (by omega) h1 rfl,
    slice_append_slice t (show 0 ≤ 2 by decide) (show 2 ≤ 9 by decide),
    slice_all_of_length hl]

end Sys2Proof.Machine
end

