-- ==== Sys2Proof/Laws/Exec.lean ====
section
/-! SUPPORT. What a call computes, and what exec does with it, said once for all calls: exec adds that
one result and changes nothing else. Then one equation per operation, its checks resolved. -/

namespace Sys2Proof.Machine

/-- What a call computes: its output or the one error it raises. -/
def computed : Instr → Except Error Output
  | .rPack f => (rPack f).map .word
  | .rUnpack w => .ok (.rFields (rUnpack w))
  | .rEncodeBin f => (rEncodeBin f).map .text
  | .rDecodeBin t => (rDecodeBin t).map .rFields
  | .rEncodePackedHex f => (rEncodePackedHex f).map .text
  | .rDecodePackedHex t => (rDecodePackedHex t).map .rFields
  | .rEncodeFieldHex f => (rEncodeFieldHex f).map .text
  | .rDecodeFieldHex t => (rDecodeFieldHex t).map .rFields
  | .iPack f => (iPack f).map .word
  | .iUnpack w => .ok (.iFields (iUnpack w))
  | .iEncodeBin f => (iEncodeBin f).map .text
  | .iDecodeBin t => (iDecodeBin t).map .iFields
  | .iEncodePackedHex f => (iEncodePackedHex f).map .text
  | .iDecodePackedHex t => (iDecodePackedHex t).map .iFields
  | .iEncodeFieldHex f => (iEncodeFieldHex f).map .text
  | .iDecodeFieldHex t => (iDecodeFieldHex t).map .iFields
  | .jPack f => (jPack f).map .word
  | .jUnpack w => .ok (.jFields (jUnpack w))
  | .jEncodeBin f => (jEncodeBin f).map .text
  | .jDecodeBin t => (jDecodeBin t).map .jFields
  | .jEncodePackedHex f => (jEncodePackedHex f).map .text
  | .jDecodePackedHex t => (jDecodePackedHex t).map .jFields
  | .jEncodeFieldHex f => (jEncodeFieldHex f).map .text
  | .jDecodeFieldHex t => (jDecodeFieldHex t).map .jFields
  | .wordToBin w => .ok (.text (wordToBin w))
  | .binToWord t => (binToWord t).map .word
  | .wordToHex w => .ok (.text (wordToHex w))
  | .hexToWord t => (hexToWord t).map .word

/-- Every call ends in a next state that has the call's result and is otherwise unchanged. -/
theorem exec_eq (i : Instr) (s : State) :
    exec i s = .next { s with results := s.results ++ [resultOf (computed i)] } := by
  cases i <;> first | exact respond_eq _ s | rfl

/-- What a next state of exec can be. -/
theorem exec_next {i : Instr} {s s' : State} (h : exec i s = .next s') :
    s' = { s with results := s.results ++ [resultOf (computed i)] } := by
  rw [exec_eq] at h
  cases h
  rfl

/-- The result of a call is read off its next state. -/
theorem exec_result {i : Instr} {s : State} {r : Result} :
    exec i s = .next { s with results := s.results ++ [r] } ↔ resultOf (computed i) = r := by
  rw [exec_eq]
  simp

theorem resultOf_eq_ok {c : Except Error Output} {v : Output} : resultOf c = .ok v ↔ c = .ok v := by
  cases c <;> simp

theorem resultOf_eq_err {c : Except Error Output} {e : Error} : resultOf c = .err e ↔ c = .error e := by
  cases c <;> simp

/-- A computation that is mapped to an output is Ok exactly when it was. -/
theorem map_eq_ok {α : Type} {c : Except Error α} {g : α → Output} {v : Output} :
    c.map g = .ok v ↔ ∃ a, c = .ok a ∧ g a = v := by
  cases c <;> simp

theorem map_eq_error {α : Type} {c : Except Error α} {g : α → Output} {e : Error} :
    c.map g = .error e ↔ c = .error e := by
  cases c <;> simp

/-- What a step can do: nothing, answer the decoded call, or stop on an ill-typed value. -/
theorem step_cases (s : State) :
    (s.calls = [] ∧ step s = .next s) ∨
    (∃ c rest i, s.calls = c :: rest ∧ decode c = .ok i ∧ step s = exec i { s with calls := rest }) ∨
    (∃ c rest why, s.calls = c :: rest ∧ decode c = .error why ∧
      step s = .fault (.notAPortInput c.port why)) := by
  obtain ⟨calls, results⟩ := s
  cases calls with
  | nil => exact .inl ⟨rfl, rfl⟩
  | cons c rest =>
    cases h : decode c with
    | ok i => exact .inr (.inl ⟨c, rest, i, rfl, h, by simp [step, takeCall, h]⟩)
    | error why => exact .inr (.inr ⟨c, rest, why, rfl, h, by simp [step, takeCall, h]⟩)

@[simp] theorem steps_zero (s : State) : steps 0 s = .next s := rfl

/-- One more step, once it is known to go on. -/
theorem steps_succ {s t : State} {k : Nat} (h : step s = .next t) : steps (k + 1) s = steps k t := by
  simp only [steps, h]

/-! The encoders: the check decides between one error and the rendering. -/

theorem rPack_eq (f : RInts) : rPack f = (rCheck f).map fun F => rWord F := by
  unfold rPack
  cases rCheck f <;> rfl

theorem rEncodeBin_eq (f : RInts) : rEncodeBin f = (rCheck f).map fun F => rBinText F := by
  unfold rEncodeBin
  cases rCheck f <;> rfl

theorem rEncodePackedHex_eq (f : RInts) : rEncodePackedHex f = (rCheck f).map fun F => hexRender (rWord F).toNat 8 := by
  unfold rEncodePackedHex
  cases rCheck f <;> rfl

theorem rEncodeFieldHex_eq (f : RInts) : rEncodeFieldHex f = (rCheck f).map fun F => rFieldHexText F := by
  unfold rEncodeFieldHex
  cases rCheck f <;> rfl

theorem iPack_eq (f : IInts) : iPack f = (iCheck f).map fun F => iWord F := by
  unfold iPack
  cases iCheck f <;> rfl

theorem iEncodeBin_eq (f : IInts) : iEncodeBin f = (iCheck f).map fun F => iBinText F := by
  unfold iEncodeBin
  cases iCheck f <;> rfl

theorem iEncodePackedHex_eq (f : IInts) : iEncodePackedHex f = (iCheck f).map fun F => hexRender (iWord F).toNat 8 := by
  unfold iEncodePackedHex
  cases iCheck f <;> rfl

theorem iEncodeFieldHex_eq (f : IInts) : iEncodeFieldHex f = (iCheck f).map fun F => iFieldHexText F := by
  unfold iEncodeFieldHex
  cases iCheck f <;> rfl

theorem jPack_eq (f : JInts) : jPack f = (jCheck f).map fun F => jWord F := by
  unfold jPack
  cases jCheck f <;> rfl

theorem jEncodeBin_eq (f : JInts) : jEncodeBin f = (jCheck f).map fun F => jBinText F := by
  unfold jEncodeBin
  cases jCheck f <;> rfl

theorem jEncodePackedHex_eq (f : JInts) : jEncodePackedHex f = (jCheck f).map fun F => hexRender (jWord F).toNat 8 := by
  unfold jEncodePackedHex
  cases jCheck f <;> rfl

theorem jEncodeFieldHex_eq (f : JInts) : jEncodeFieldHex f = (jCheck f).map fun F => jFieldHexText F := by
  unfold jEncodeFieldHex
  cases jCheck f <;> rfl

/-! The decoders: the checks passed, what is read. -/

theorem binChecks {α : Type} {t : Text} {n : Nat} {A : Alphabet} (hl : t.length = n)
    (ha : t.all (inAlphabet A) = true) (k : Except Error α) :
    (do checkLength t n; checkAlphabet t A; k) = k := by
  rw [checkLength_eq, if_pos hl, checkAlphabet_ok ha]
  rfl

theorem lengthFails {α : Type} {t : Text} {n : Nat} {A : Alphabet} (hl : t.length ≠ n)
    (k : Except Error α) : (do checkLength t n; checkAlphabet t A; k) =
      .error (.malformedInput (.badLength (.exactly n) t.length)) := by
  rw [checkLength_eq, if_neg hl]
  rfl

theorem charFails {α : Type} {t : Text} {n j : Nat} {c : Char} {A : Alphabet} (hl : t.length = n)
    (hc : t[j]? = some c) (hbad : inAlphabet A c = false)
    (hfirst : (t.take j).all (inAlphabet A) = true) (k : Except Error α) :
    (do checkLength t n; checkAlphabet t A; k) = .error (.malformedInput (.badChar j c)) := by
  rw [checkLength_eq, if_pos hl, checkAlphabet_first hc hbad hfirst]
  rfl

theorem hexToWord_ok {t : Text} (h0 : t ≠ []) (ha : t.all isHex = true) (hv : hexValue t < 2 ^ 32) :
    hexToWord t = .ok (BitVec.ofNat 32 (hexValue t)) := by
  rw [hexToWord_eq, if_neg (by simpa using h0), checkAlphabet_ok (A := .hex) ha]
  simp only [except_ok_bind, if_neg (Nat.not_le.2 hv)]

theorem hexToWord_overflow {t : Text} (ha : t.all isHex = true) (hv : 2 ^ 32 ≤ hexValue t) :
    hexToWord t = .error (.integerOverflow (hexValue t)) := by
  have h0 : t.length ≠ 0 := by
    intro h
    rw [List.length_eq_zero_iff] at h
    subst h
    simp [hexValue] at hv
  rw [hexToWord_eq, if_neg h0, checkAlphabet_ok (A := .hex) ha]
  simp only [except_ok_bind, if_pos hv]

theorem hexToWord_badChar {t : Text} {c : Char} {j : Nat} (hc : t[j]? = some c)
    (hbad : isHex c = false) (hfirst : (t.take j).all isHex = true) :
    hexToWord t = .error (.malformedInput (.badChar j c)) := by
  have h0 : t.length ≠ 0 := by
    intro h
    rw [List.length_eq_zero_iff] at h
    subst h
    simp at hc
  rw [hexToWord_eq, if_neg h0, checkAlphabet_first (A := .hex) hc hbad hfirst]
  rfl

theorem rDecodeBin_ok {t : Text} (hl : t.length = 32) (ha : t.all isBin = true) :
    rDecodeBin t = .ok (rFields (BitVec.ofNat 32 (binValue t))) := by
  have ht : rBinText (rFields (BitVec.ofNat 32 (binValue t))) = t := by
    have hv := binValue_lt t
    rw [hl] at hv
    rw [rBinText_eq, rWord_rFields, BitVec.toNat_ofNat, Nat.mod_eq_of_lt hv, ← hl]
    exact binRender_binValue t ha
  have cut := rBinText_cut (rFields (BitVec.ofNat 32 (binValue t)))
  rw [ht] at cut
  unfold rDecodeBin
  rw [binChecks (n := Config.binLen) (A := .bin) hl ha, except_pure]
  congr 1
  obtain ⟨h0, h1, h2, h3, h4, h5⟩ := cut
  simp only [h0, h1, h2, h3, h4, h5, BitVec.ofNat_toNat, BitVec.setWidth_eq]

theorem rDecodeFieldHex_eq {t : Text} (hl : t.length = 12) (ha : t.all isHex = true) :
    rDecodeFieldHex t = match firstTooWide (rGroups t) with
      | some (name, v) => .error (.malformedInput (.fieldTooWide name v (Config.width name)))
      | none => .ok (rOfFieldHex t) := by
  unfold rDecodeFieldHex
  rw [binChecks (n := Config.fhLenR) (A := .hex) hl ha]
  simp only [fhField, firstTooWide, rGroups, List.find?, Config.width]
  by_cases h0 : 2 ^ 6 ≤ hexValue (slice t 0 2)
  · simp only [h0, if_true, decide_true]
    rfl
  simp only [h0, if_false, decide_false, except_ok_bind]
  by_cases h1 : 2 ^ 5 ≤ hexValue (slice t 2 4)
  · simp only [h1, if_true, decide_true]
    rfl
  simp only [h1, if_false, decide_false, except_ok_bind]
  by_cases h2 : 2 ^ 5 ≤ hexValue (slice t 4 6)
  · simp only [h2, if_true, decide_true]
    rfl
  simp only [h2, if_false, decide_false, except_ok_bind]
  by_cases h3 : 2 ^ 5 ≤ hexValue (slice t 6 8)
  · simp only [h3, if_true, decide_true]
    rfl
  simp only [h3, if_false, decide_false, except_ok_bind]
  by_cases h4 : 2 ^ 5 ≤ hexValue (slice t 8 10)
  · simp only [h4, if_true, decide_true]
    rfl
  simp only [h4, if_false, decide_false, except_ok_bind]
  by_cases h5 : 2 ^ 6 ≤ hexValue (slice t 10 12)
  · simp only [h5, if_true, decide_true]
    rfl
  · simp only [h5, if_false, decide_false]
    rfl

theorem iDecodeBin_ok {t : Text} (hl : t.length = 32) (ha : t.all isBin = true) :
    iDecodeBin t = .ok (iFields (BitVec.ofNat 32 (binValue t))) := by
  have ht : iBinText (iFields (BitVec.ofNat 32 (binValue t))) = t := by
    have hv := binValue_lt t
    rw [hl] at hv
    rw [iBinText_eq, iWord_iFields, BitVec.toNat_ofNat, Nat.mod_eq_of_lt hv, ← hl]
    exact binRender_binValue t ha
  have cut := iBinText_cut (iFields (BitVec.ofNat 32 (binValue t)))
  rw [ht] at cut
  unfold iDecodeBin
  rw [binChecks (n := Config.binLen) (A := .bin) hl ha, except_pure]
  congr 1
  obtain ⟨h0, h1, h2, h3⟩ := cut
  simp only [h0, h1, h2, h3, BitVec.ofNat_toNat, BitVec.setWidth_eq]

theorem iDecodeFieldHex_eq {t : Text} (hl : t.length = 10) (ha : t.all isHex = true) :
    iDecodeFieldHex t = match firstTooWide (iGroups t) with
      | some (name, v) => .error (.malformedInput (.fieldTooWide name v (Config.width name)))
      | none => .ok (iOfFieldHex t) := by
  unfold iDecodeFieldHex
  rw [binChecks (n := Config.fhLenI) (A := .hex) hl ha]
  simp only [fhField, firstTooWide, iGroups, List.find?, Config.width]
  by_cases h0 : 2 ^ 6 ≤ hexValue (slice t 0 2)
  · simp only [h0, if_true, decide_true]
    rfl
  simp only [h0, if_false, decide_false, except_ok_bind]
  by_cases h1 : 2 ^ 5 ≤ hexValue (slice t 2 4)
  · simp only [h1, if_true, decide_true]
    rfl
  simp only [h1, if_false, decide_false, except_ok_bind]
  by_cases h2 : 2 ^ 5 ≤ hexValue (slice t 4 6)
  · simp only [h2, if_true, decide_true]
    rfl
  simp only [h2, if_false, decide_false, except_ok_bind]
  by_cases h3 : 2 ^ 16 ≤ hexValue (slice t 6 10)
  · simp only [h3, if_true, decide_true]
    rfl
  · simp only [h3, if_false, decide_false]
    rfl

theorem jDecodeBin_ok {t : Text} (hl : t.length = 32) (ha : t.all isBin = true) :
    jDecodeBin t = .ok (jFields (BitVec.ofNat 32 (binValue t))) := by
  have ht : jBinText (jFields (BitVec.ofNat 32 (binValue t))) = t := by
    have hv := binValue_lt t
    rw [hl] at hv
    rw [jBinText_eq, jWord_jFields, BitVec.toNat_ofNat, Nat.mod_eq_of_lt hv, ← hl]
    exact binRender_binValue t ha
  have cut := jBinText_cut (jFields (BitVec.ofNat 32 (binValue t)))
  rw [ht] at cut
  unfold jDecodeBin
  rw [binChecks (n := Config.binLen) (A := .bin) hl ha, except_pure]
  congr 1
  obtain ⟨h0, h1⟩ := cut
  simp only [h0, h1, BitVec.ofNat_toNat, BitVec.setWidth_eq]

theorem jDecodeFieldHex_eq {t : Text} (hl : t.length = 9) (ha : t.all isHex = true) :
    jDecodeFieldHex t = match firstTooWide (jGroups t) with
      | some (name, v) => .error (.malformedInput (.fieldTooWide name v (Config.width name)))
      | none => .ok (jOfFieldHex t) := by
  unfold jDecodeFieldHex
  rw [binChecks (n := Config.fhLenJ) (A := .hex) hl ha]
  simp only [fhField, firstTooWide, jGroups, List.find?, Config.width]
  by_cases h0 : 2 ^ 6 ≤ hexValue (slice t 0 2)
  · simp only [h0, if_true, decide_true]
    rfl
  simp only [h0, if_false, decide_false, except_ok_bind]
  by_cases h1 : 2 ^ 26 ≤ hexValue (slice t 2 9)
  · simp only [h1, if_true, decide_true]
    rfl
  · simp only [h1, if_false, decide_false]
    rfl

end Sys2Proof.Machine
end

