-- ==== Sys2Proof/Laws/PerInstr.lean ====
section
/-! SUPPORT. Facts about every call, one lemma per constructor of Instr. -/

namespace Sys2Proof.Laws.CallRoundTrip

/-- Decoding what a caller presents to make a call gives that call, with every operand at every
value: no integer, word or text is dropped or changed on the way to its port. -/
def Statement (i : Instr) : Prop := decode (encode i) = .ok i

/-- A word presented as a number comes back as the word. -/
theorem asWord_toNat (w : Word) : asWord (.word w.toNat) = .ok w := by
  simp [asWord, w.isLt]

theorem rPack (f : RInts) : Statement (.rPack f) := rfl

theorem rUnpack (w : Word) : Statement (.rUnpack w) := by
  simp [Statement, decode, encode, asWord_toNat, Except.map]

theorem rEncodeBin (f : RInts) : Statement (.rEncodeBin f) := rfl

theorem rDecodeBin (t : Text) : Statement (.rDecodeBin t) := rfl

theorem rEncodePackedHex (f : RInts) : Statement (.rEncodePackedHex f) := rfl

theorem rDecodePackedHex (t : Text) : Statement (.rDecodePackedHex t) := rfl

theorem rEncodeFieldHex (f : RInts) : Statement (.rEncodeFieldHex f) := rfl

theorem rDecodeFieldHex (t : Text) : Statement (.rDecodeFieldHex t) := rfl

theorem iPack (f : IInts) : Statement (.iPack f) := rfl

theorem iUnpack (w : Word) : Statement (.iUnpack w) := by
  simp [Statement, decode, encode, asWord_toNat, Except.map]

theorem iEncodeBin (f : IInts) : Statement (.iEncodeBin f) := rfl

theorem iDecodeBin (t : Text) : Statement (.iDecodeBin t) := rfl

theorem iEncodePackedHex (f : IInts) : Statement (.iEncodePackedHex f) := rfl

theorem iDecodePackedHex (t : Text) : Statement (.iDecodePackedHex t) := rfl

theorem iEncodeFieldHex (f : IInts) : Statement (.iEncodeFieldHex f) := rfl

theorem iDecodeFieldHex (t : Text) : Statement (.iDecodeFieldHex t) := rfl

theorem jPack (f : JInts) : Statement (.jPack f) := rfl

theorem jUnpack (w : Word) : Statement (.jUnpack w) := by
  simp [Statement, decode, encode, asWord_toNat, Except.map]

theorem jEncodeBin (f : JInts) : Statement (.jEncodeBin f) := rfl

theorem jDecodeBin (t : Text) : Statement (.jDecodeBin t) := rfl

theorem jEncodePackedHex (f : JInts) : Statement (.jEncodePackedHex f) := rfl

theorem jDecodePackedHex (t : Text) : Statement (.jDecodePackedHex t) := rfl

theorem jEncodeFieldHex (f : JInts) : Statement (.jEncodeFieldHex f) := rfl

theorem jDecodeFieldHex (t : Text) : Statement (.jDecodeFieldHex t) := rfl

theorem wordToBin (w : Word) : Statement (.wordToBin w) := by
  simp [Statement, decode, encode, asWord_toNat, Except.map]

theorem binToWord (t : Text) : Statement (.binToWord t) := rfl

theorem wordToHex (w : Word) : Statement (.wordToHex w) := by
  simp [Statement, decode, encode, asWord_toNat, Except.map]

theorem hexToWord (t : Text) : Statement (.hexToWord t) := rfl

end Sys2Proof.Laws.CallRoundTrip
end

