-- ==== Sys2Proof/Tests/Slice0.lean ====
section
/-! SUPPORT. The model's own tests: ill-formed calls refused by the well-formedness test, words written
out from the layout tables decoded, one or two vectors of spec/95_test_vectors.md per port, and for
every obligation with hypotheses operands that meet them, at the boundary of each clause. -/

namespace Sys2Proof.Tests

open Sys2Proof Sys2Proof.Machine

/-- The result of one call made at reset. -/
def answer (i : Instr) : Option Result :=
  match exec i State.reset with
  | .next s => s.results.getLast?
  | _ => none

/-- A call's result is this value. -/
def gives (i : Instr) (v : Output) : Bool := decide (answer i = some (.ok v))

/-- A call's result is this error. -/
def fails (i : Instr) (e : Error) : Bool := decide (answer i = some (.err e))

/-- A state in which one call waits and one result stands. -/
def busy : State := ⟨[⟨.jUnpack, .word 7⟩], [.ok (.word 3#32)]⟩

/-! Well-formedness: one ill-formed call for each check, and the limit that still passes. -/

theorem test_smoke_r_fields :
    [(⟨63, 31, 31, 31, 31, 63⟩ : RInts), ⟨64, 0, 0, 0, 0, 0⟩, ⟨0, 32, 0, 0, 0, 0⟩, ⟨0, 0, -1, 0, 0, 0⟩,
      ⟨0, 0, 0, 32, 0, 0⟩, ⟨0, 0, 0, 0, 32, 0⟩, ⟨0, 0, 0, 0, 0, 64⟩].map
        (fun f => ((Instr.rPack f).wellFormed, (Instr.rEncodeBin f).wellFormed,
          (Instr.rEncodePackedHex f).wellFormed, (Instr.rEncodeFieldHex f).wellFormed)) =
      (true, true, true, true) :: List.replicate 6 (false, false, false, false) := by decide

theorem test_smoke_i_fields :
    [(⟨63, 31, 31, 65535⟩ : IInts), ⟨-1, 0, 0, 0⟩, ⟨0, 32, 0, 0⟩, ⟨0, 0, 32, 0⟩, ⟨0, 0, 0, 65536⟩,
      ⟨0, 0, 0, -1⟩].map
        (fun f => ((Instr.iPack f).wellFormed, (Instr.iEncodeBin f).wellFormed,
          (Instr.iEncodePackedHex f).wellFormed, (Instr.iEncodeFieldHex f).wellFormed)) =
      (true, true, true, true) :: List.replicate 5 (false, false, false, false) := by decide

theorem test_smoke_j_fields :
    [(⟨63, 67108863⟩ : JInts), ⟨64, 0⟩, ⟨0, 67108864⟩, ⟨0, -1⟩].map
        (fun f => ((Instr.jPack f).wellFormed, (Instr.jEncodeBin f).wellFormed,
          (Instr.jEncodePackedHex f).wellFormed, (Instr.jEncodeFieldHex f).wellFormed)) =
      (true, true, true, true) :: List.replicate 3 (false, false, false, false) := by decide

theorem test_smoke_binary :
    ["11111111111111111111111111111111", "1111111111111111111111111111111",
      "111111111111111111111111111111111", "11111111111111111111111111111112"].map
        (fun t => ((Instr.rDecodeBin t.toList).wellFormed, (Instr.iDecodeBin t.toList).wellFormed,
          (Instr.jDecodeBin t.toList).wellFormed, (Instr.binToWord t.toList).wellFormed)) =
      (true, true, true, true) :: List.replicate 3 (false, false, false, false) := by decide

theorem test_smoke_packed_hex :
    ["0FFFFFFFF", "", "0x1", "100000000"].map
        (fun t => ((Instr.rDecodePackedHex t.toList).wellFormed, (Instr.iDecodePackedHex t.toList).wellFormed,
          (Instr.jDecodePackedHex t.toList).wellFormed, (Instr.hexToWord t.toList).wellFormed)) =
      (true, true, true, true) :: List.replicate 3 (false, false, false, false) := by decide

theorem test_smoke_r_field_hex :
    ["3F1F1F1F1F3f", "3F1F1F1F1F3", "3F1F1F1F1F3G", "400000000000", "002000000000", "000020000000",
      "000000200000", "000000002000", "000000000040"].map
        (fun t => (Instr.rDecodeFieldHex t.toList).wellFormed) =
      true :: List.replicate 8 false := by decide

theorem test_smoke_i_field_hex :
    ["3F1F1FFFFF", "3F1F1FFFF", "08 1020064", "4000000000", "0020000000", "0000200000"].map
        (fun t => (Instr.iDecodeFieldHex t.toList).wellFormed) =
      true :: List.replicate 5 false := by decide

theorem test_smoke_j_field_hex :
    ["3F3FFFFFF", "020003E8", "02000G3E8", "400000000", "004000000"].map
        (fun t => (Instr.jDecodeFieldHex t.toList).wellFormed) =
      true :: List.replicate 4 false := by decide

/-- The texts that are decoded but that no encoder writes. -/
theorem test_smoke_canonical :
    (Instr.hexToWord "ABCDEF01".toList).canonical = true ∧
      (Instr.hexToWord "abcdef01".toList).canonical = false ∧
      (Instr.hexToWord "ABCD".toList).canonical = false ∧
      (Instr.jDecodeFieldHex "0200003e8".toList).canonical = false := by decide

/-! Decoding: words written out field by field from rules R61 to R63. -/

theorem test_decode_rPack : decodeTableWord 32 0b000000_01000_01001_01010_00000_100000 =
    some (.rPack ⟨0, 8, 9, 10, 0, 32⟩) := by decide
theorem test_decode_rUnpack : decodeTableWord 40 (1 * 2 ^ 32 + 0b000000_01000_01001_01010_00000_100000) =
    some (.rUnpack 0x01095020#32) := by decide
theorem test_decode_rEncodeBin : decodeTableWord 40 (2 * 2 ^ 32 + 0b111111_00001_00010_00100_01000_000001) =
    some (.rEncodeBin ⟨63, 1, 2, 4, 8, 1⟩) := by decide
theorem test_decode_rDecodeBin : decodeTableWord 40 (3 * 2 ^ 32 + 0b000000_01000_01001_01010_00000_100000) =
    some (.rDecodeBin "00000001000010010101000000100000".toList) := by decide
theorem test_decode_rEncodePackedHex :
    decodeTableWord 40 (4 * 2 ^ 32 + 0b000000_10001_10010_01000_00000_101010) =
      some (.rEncodePackedHex ⟨0, 17, 18, 8, 0, 42⟩) := by decide
theorem test_decode_rDecodePackedHex :
    decodeTableWord 40 (5 * 2 ^ 32 + 0b000000_10001_10010_01000_00000_101010) =
      some (.rDecodePackedHex "0232402A".toList) := by decide
theorem test_decode_rEncodeFieldHex :
    decodeTableWord 40 (6 * 2 ^ 32 + 0b000000_00000_01001_01000_00100_000000) =
      some (.rEncodeFieldHex ⟨0, 0, 9, 8, 4, 0⟩) := by decide
theorem test_decode_rDecodeFieldHex :
    decodeTableWord 40 (7 * 2 ^ 32 + 0b000000_01000_01001_01010_00000_100000) =
      some (.rDecodeFieldHex "0008090A0020".toList) := by decide

theorem test_decode_iPack : decodeTableWord 40 (8 * 2 ^ 32 + 0b001000_00001_00010_0000000001100100) =
    some (.iPack ⟨8, 1, 2, 100⟩) := by decide
theorem test_decode_iUnpack : decodeTableWord 40 (9 * 2 ^ 32 + 0b001000_00001_00010_0000000001100100) =
    some (.iUnpack 0x20220064#32) := by decide
theorem test_decode_iEncodeBin : decodeTableWord 40 (10 * 2 ^ 32 + 0b000000_00000_00000_1000000000000000) =
    some (.iEncodeBin ⟨0, 0, 0, 32768⟩) := by decide
theorem test_decode_iDecodeBin : decodeTableWord 40 (11 * 2 ^ 32 + 0b001000_00001_00010_0000000001100100) =
    some (.iDecodeBin "00100000001000100000000001100100".toList) := by decide
theorem test_decode_iEncodePackedHex :
    decodeTableWord 40 (12 * 2 ^ 32 + 0b001000_00000_01000_0000000000000101) =
      some (.iEncodePackedHex ⟨8, 0, 8, 5⟩) := by decide
theorem test_decode_iDecodePackedHex :
    decodeTableWord 40 (13 * 2 ^ 32 + 0b001000_00001_00010_0000000001100100) =
      some (.iDecodePackedHex "20220064".toList) := by decide
theorem test_decode_iEncodeFieldHex :
    decodeTableWord 40 (14 * 2 ^ 32 + 0b001000_00000_01000_0000000000000101) =
      some (.iEncodeFieldHex ⟨8, 0, 8, 5⟩) := by decide
theorem test_decode_iDecodeFieldHex :
    decodeTableWord 40 (15 * 2 ^ 32 + 0b001000_00001_00010_0000000001100100) =
      some (.iDecodeFieldHex "0801020064".toList) := by decide

theorem test_decode_jPack : decodeTableWord 40 (16 * 2 ^ 32 + 0b000010_00000000000000001111101000) =
    some (.jPack ⟨2, 1000⟩) := by decide
theorem test_decode_jUnpack : decodeTableWord 40 (17 * 2 ^ 32 + 0b000010_00000000000000001111101000) =
    some (.jUnpack 0x080003E8#32) := by decide
theorem test_decode_jEncodeBin : decodeTableWord 40 (18 * 2 ^ 32 + 0b000011_00000000000000000000000000) =
    some (.jEncodeBin ⟨3, 0⟩) := by decide
theorem test_decode_jDecodeBin : decodeTableWord 40 (19 * 2 ^ 32 + 0b000010_00000000000000001111101000) =
    some (.jDecodeBin "00001000000000000000001111101000".toList) := by decide
theorem test_decode_jEncodePackedHex :
    decodeTableWord 40 (20 * 2 ^ 32 + 0b000010_00000100000000000000000000) =
      some (.jEncodePackedHex ⟨2, 1048576⟩) := by decide
theorem test_decode_jDecodePackedHex :
    decodeTableWord 40 (21 * 2 ^ 32 + 0b000010_00000000000000001111101000) =
      some (.jDecodePackedHex "080003E8".toList) := by decide
theorem test_decode_jEncodeFieldHex :
    decodeTableWord 40 (22 * 2 ^ 32 + 0b000000_01000000000000000000000000) =
      some (.jEncodeFieldHex ⟨0, 16777216⟩) := by decide
theorem test_decode_jDecodeFieldHex :
    decodeTableWord 40 (23 * 2 ^ 32 + 0b000010_00000000000000001111101000) =
      some (.jDecodeFieldHex "0200003E8".toList) := by decide

theorem test_decode_wordToBin : decodeTableWord 40 (24 * 2 ^ 32 + 0x80000001) =
    some (.wordToBin 0x80000001#32) := by decide
theorem test_decode_binToWord : decodeTableWord 40 (25 * 2 ^ 32 + 0x80000001) =
    some (.binToWord "10000000000000000000000000000001".toList) := by decide
theorem test_decode_wordToHex : decodeTableWord 40 (26 * 2 ^ 32 + 0x0000ABCD) =
    some (.wordToHex 0x0000ABCD#32) := by decide
theorem test_decode_hexToWord : decodeTableWord 40 (27 * 2 ^ 32 + 0x0000ABCD) =
    some (.hexToWord "0000ABCD".toList) := by decide

/-- No port has number 28, and bits above `nbits` are 0. -/
theorem test_decode_no_port : decodeTableWord 40 (28 * 2 ^ 32) = none ∧
    decodeTableWord 32 (28 * 2 ^ 32 + 1) = some (.rPack ⟨0, 0, 0, 0, 0, 1⟩) := by decide

/-! One call per port: the vectors of spec/95_test_vectors.md. -/

theorem test_rPack : gives (.rPack ⟨0, 8, 9, 10, 0, 32⟩) (.word 0x01095020#32) = true := by decide
theorem test_rPack_first_field_wins :
    fails (.rPack ⟨64, 32, 0, 0, 0, 0⟩) (.fieldOutOfRange .opcode 64 6) = true := by decide
theorem test_rUnpack : gives (.rUnpack 0xDEADBEEF#32) (.rFields ⟨55, 21, 13, 23, 27, 47⟩) = true := by
  decide
theorem test_rEncodeBin : gives (.rEncodeBin ⟨0, 8, 9, 10, 31, 32⟩)
    (.text "00000001000010010101011111100000".toList) = true := by decide
theorem test_rEncodeBin_negative :
    fails (.rEncodeBin ⟨0, 0, 0, 0, 0, -1⟩) (.fieldOutOfRange .funct (-1) 6) = true := by decide
theorem test_rDecodeBin : gives (.rDecodeBin "00000001000010010101000000100000".toList)
    (.rFields ⟨0, 8, 9, 10, 0, 32⟩) = true := by decide
theorem test_rDecodeBin_space : fails (.rDecodeBin "000000010000010010100000100000 0".toList)
    (.malformedInput (.badChar 30 ' ')) = true := by decide
theorem test_rEncodePackedHex :
    gives (.rEncodePackedHex ⟨0, 8, 9, 10, 31, 32⟩) (.text "010957E0".toList) = true := by decide
theorem test_rDecodePackedHex : gives (.rDecodePackedHex "000000001095020".toList)
    (.rFields ⟨0, 8, 9, 10, 0, 32⟩) = true := by decide
theorem test_rDecodePackedHex_overflow : fails (.rDecodePackedHex "1010957E0".toList)
    (.integerOverflow 4312356832) = true := by decide
theorem test_rEncodeFieldHex :
    gives (.rEncodeFieldHex ⟨0, 8, 9, 10, 0, 32⟩) (.text "0008090A0020".toList) = true := by decide
theorem test_rEncodeFieldHex_bad :
    fails (.rEncodeFieldHex ⟨0, 8, 9, 10, 32, 32⟩) (.fieldOutOfRange .shamt 32 5) = true := by decide
theorem test_rDecodeFieldHex : gives (.rDecodeFieldHex "0008090a0020".toList)
    (.rFields ⟨0, 8, 9, 10, 0, 32⟩) = true := by decide
theorem test_rDecodeFieldHex_wide : fails (.rDecodeFieldHex "0008090A2020".toList)
    (.malformedInput (.fieldTooWide .shamt 32 5)) = true := by decide

theorem test_iPack : gives (.iPack ⟨8, 1, 2, 100⟩) (.word 0x20220064#32) = true := by decide
theorem test_iPack_negative :
    fails (.iPack ⟨0, 0, 0, -1⟩) (.fieldOutOfRange .immediate (-1) 16) = true := by decide
theorem test_iUnpack : gives (.iUnpack 0xDEADBEEF#32) (.iFields ⟨55, 21, 13, 48879⟩) = true := by decide
theorem test_iEncodeBin : gives (.iEncodeBin ⟨8, 0, 8, 5⟩)
    (.text "00100000000010000000000000000101".toList) = true := by decide
theorem test_iDecodeBin : gives (.iDecodeBin "00100000001000100000000001100100".toList)
    (.iFields ⟨8, 1, 2, 100⟩) = true := by decide
theorem test_iDecodeBin_last : fails (.iDecodeBin "00000000000000000000000000000002".toList)
    (.malformedInput (.badChar 31 '2')) = true := by decide
theorem test_iEncodePackedHex :
    gives (.iEncodePackedHex ⟨8, 1, 2, 100⟩) (.text "20220064".toList) = true := by decide
theorem test_iDecodePackedHex :
    gives (.iDecodePackedHex "2102".toList) (.iFields ⟨0, 0, 0, 8450⟩) = true := by decide
theorem test_iEncodeFieldHex :
    gives (.iEncodeFieldHex ⟨8, 1, 2, 100⟩) (.text "0801020064".toList) = true := by decide
theorem test_iDecodeFieldHex :
    gives (.iDecodeFieldHex "000000ffff".toList) (.iFields ⟨0, 0, 0, 65535⟩) = true := by decide
theorem test_iDecodeFieldHex_length : fails (.iDecodeFieldHex "20220064".toList)
    (.malformedInput (.badLength (.exactly 10) 8)) = true := by decide

theorem test_jPack : gives (.jPack ⟨2, 1000⟩) (.word 0x080003E8#32) = true := by decide
theorem test_jPack_address :
    fails (.jPack ⟨0, 67108864⟩) (.fieldOutOfRange .address 67108864 26) = true := by decide
theorem test_jUnpack : gives (.jUnpack 0xDEADBEEF#32) (.jFields ⟨55, 44941039⟩) = true := by decide
theorem test_jEncodeBin : gives (.jEncodeBin ⟨2, 1048576⟩)
    (.text "00001000000100000000000000000000".toList) = true := by decide
theorem test_jDecodeBin : gives (.jDecodeBin "00000001000010010101000000100000".toList)
    (.jFields ⟨0, 17387552⟩) = true := by decide
theorem test_jDecodeBin_char : fails (.jDecodeBin "00000020000000000000000000000000".toList)
    (.malformedInput (.badChar 6 '2')) = true := by decide
theorem test_jEncodePackedHex :
    gives (.jEncodePackedHex ⟨2, 1000⟩) (.text "080003E8".toList) = true := by decide
theorem test_jDecodePackedHex_misread :
    gives (.jDecodePackedHex "0200003E8".toList) (.jFields ⟨8, 1000⟩) = true := by decide
theorem test_jDecodePackedHex_overflow : fails (.jDecodePackedHex "3F3FFFFFF".toList)
    (.integerOverflow 16978542591) = true := by decide
theorem test_jEncodeFieldHex :
    gives (.jEncodeFieldHex ⟨0, 16777216⟩) (.text "001000000".toList) = true := by decide
theorem test_jDecodeFieldHex :
    gives (.jDecodeFieldHex "3F3FFFFFF".toList) (.jFields ⟨63, 67108863⟩) = true := by decide
theorem test_jDecodeFieldHex_wide : fails (.jDecodeFieldHex "0FFFFFFFF".toList)
    (.malformedInput (.fieldTooWide .address 268435455 26)) = true := by decide

theorem test_wordToBin : gives (.wordToBin 0x0000ABCD#32)
    (.text "00000000000000001010101111001101".toList) = true := by decide
theorem test_binToWord : gives (.binToWord "00000001000010010101000000100000".toList)
    (.word 0x01095020#32) = true := by decide
theorem test_binToWord_length_first : fails (.binToWord "2222222222222222222222222222222".toList)
    (.malformedInput (.badLength (.exactly 32) 31)) = true := by decide
theorem test_wordToHex : gives (.wordToHex 0x0000ABCD#32) (.text "0000ABCD".toList) = true := by decide
theorem test_hexToWord : gives (.hexToWord "abcd".toList) (.word 0x0000ABCD#32) = true := by decide
theorem test_hexToWord_empty : fails (.hexToWord "".toList)
    (.malformedInput (.badLength .atLeastOne 0)) = true := by decide

/-! Steps. -/

/-- The result standing last after one step. -/
def stepped (s : State) : Option Result :=
  match step s with
  | .next t => t.results.getLast?
  | _ => none

theorem test_step_fetched :
    stepped (State.reset.withFetchWord 32 0x01095020) = some (.ok (.word 0x01095020#32)) ∧
      stepped (busy.withFetchWord 40 (23 * 2 ^ 32 + 0x080003E8)) = some (.ok (.jFields ⟨2, 1000⟩)) := by
  decide

theorem test_step_ill_typed : stepped ⟨[⟨.rPack, .fields [1, 2]⟩], []⟩ = none ∧
    stepped ⟨[⟨.jUnpack, .word (2 ^ 32)⟩], []⟩ = none := by decide

/-! Witnesses: operands that meet the hypotheses of the obligations. -/

/-- StepAnswersDecodedCall, PortAloneSelectsOperation (its first clause). -/
theorem witness_decoded_call :
    busy.calls = ⟨.jUnpack, .word 7⟩ :: [] ∧
      decode ⟨.jUnpack, .word 7⟩ = .ok (.jUnpack 7#32) := ⟨rfl, rfl⟩

/-- StepWithNothingPresentedChangesNothing. -/
theorem witness_nothing_presented : State.calls ⟨[], busy.results⟩ = [] := by decide

/-- StepStopsOnlyOnIllTypedInput: the last number that is a word, and the first that is none. -/
theorem witness_typed_input :
    (State.calls ⟨[⟨.rUnpack, .word (2 ^ 32 - 1)⟩], []⟩ = [⟨.rUnpack, .word (2 ^ 32 - 1)⟩] ∧
      mayTake .rUnpack (.word (2 ^ 32 - 1)) = true) ∧
      (State.calls ⟨[⟨.rUnpack, .word (2 ^ 32)⟩], []⟩ = [⟨.rUnpack, .word (2 ^ 32)⟩] ∧
      mayTake .rUnpack (.word (2 ^ 32)) = false) := by decide

/-- FetchedWordRunsNext. -/
theorem witness_fetched_word : decodeTableWord 32 0 = some (.rPack ⟨0, 0, 0, 0, 0, 0⟩) ∧
    decodeTableWord 40 (27 * 2 ^ 32) = some (.hexToWord "00000000".toList) := by decide

/-- DecodeOfEncodedNumberIsTheCall, EveryNumberIsOneCall (its uniqueness clause). -/
theorem witness_valid_canonical_call :
    (Instr.jDecodeFieldHex "3F3FFFFFF".toList).wellFormed = true ∧
      (Instr.jDecodeFieldHex "3F3FFFFFF".toList).canonical = true ∧
      encodeNumber (.jDecodeFieldHex "3F3FFFFFF".toList) =
        Port.jDecodeFieldHex.number * 2 ^ 32 + (0xFFFFFFFF#32).toNat := by decide

/-- RPackResult, REncodeBinResult, REncodePackedHexResult, REncodeFieldHexResult: both clauses. -/
theorem witness_r_encoders :
    firstOutOfRange (rNamed ⟨64, 32, 0, 0, 0, 0⟩) = some (.opcode, 64) ∧
      firstOutOfRange (rNamed ⟨63, 31, 31, 31, 31, -1⟩) = some (.funct, -1) ∧
      firstOutOfRange (rNamed ⟨63, 31, 31, 31, 31, 63⟩) = none ∧
      firstOutOfRange (rNamed ⟨0, 0, 0, 0, 0, 0⟩) = none := by decide

/-- IPackResult, IEncodeBinResult, IEncodePackedHexResult, IEncodeFieldHexResult: both clauses. -/
theorem witness_i_encoders :
    firstOutOfRange (iNamed ⟨0, 32, 0, 65536⟩) = some (.rs, 32) ∧
      firstOutOfRange (iNamed ⟨63, 31, 31, 65536⟩) = some (.immediate, 65536) ∧
      firstOutOfRange (iNamed ⟨63, 31, 31, 65535⟩) = none ∧
      firstOutOfRange (iNamed ⟨0, 0, 0, 0⟩) = none := by decide

/-- JPackResult, JEncodeBinResult, JEncodePackedHexResult, JEncodeFieldHexResult: both clauses. -/
theorem witness_j_encoders :
    firstOutOfRange (jNamed ⟨-1, 67108864⟩) = some (.opcode, -1) ∧
      firstOutOfRange (jNamed ⟨63, 67108864⟩) = some (.address, 67108864) ∧
      firstOutOfRange (jNamed ⟨63, 67108863⟩) = none ∧
      firstOutOfRange (jNamed ⟨0, 0⟩) = none := by decide

/-- A text of length `n` whose first character outside the alphabet is `c` at index `k`. -/
def firstBad (p : Char → Bool) (t : Text) (n k : Nat) (c : Char) : Bool :=
  decide (t.length = n) && decide (t[k]? = some c) && !p c && (t.take k).all p

/-- RDecodeBinResult, IDecodeBinResult, JDecodeBinResult, BinToWordResult: each clause. -/
theorem witness_binary_decoders :
    ("".toList.length ≠ 32 ∧ "1111111111111111111111111111111".toList.length ≠ 32 ∧
      "111111111111111111111111111111111".toList.length ≠ 32) ∧
      firstBad isBin "20000000000000000000000000000002".toList 32 0 '2' = true ∧
      firstBad isBin "00000000000000000000000000000002".toList 32 31 '2' = true ∧
      "11111111111111111111111111111111".toList.length = 32 ∧
      "11111111111111111111111111111111".toList.all isBin = true := by decide

/-- RDecodePackedHexResult, IDecodePackedHexResult, JDecodePackedHexResult, HexToWordResult: each
clause, on both sides of 2^32. -/
theorem witness_packed_hex_decoders :
    "".toList = ([] : Text) ∧ firstBad isHex "0x1x".toList 4 1 'x' = true ∧
      ("100000000".toList.all isHex = true ∧ 2 ^ 32 ≤ hexValue "100000000".toList) ∧
      ("0ffffFFFF".toList ≠ [] ∧ "0ffffFFFF".toList.all isHex = true ∧
        hexValue "0ffffFFFF".toList < 2 ^ 32) := by decide

/-- RDecodeFieldHexResult: each clause, on both sides of a field's limit. -/
theorem witness_r_field_hex_decoder :
    "01095020".toList.length ≠ 12 ∧ firstBad isHex "0008090A002G".toList 12 11 'G' = true ∧
      firstTooWide (rGroups "3F1F1F1F2040".toList) = some (.shamt, 32) ∧
      firstTooWide (rGroups "3F1F1F1F1F40".toList) = some (.funct, 64) ∧
      "3F1F1F1F1F40".toList.length = 12 ∧ "3F1F1F1F1F40".toList.all isHex = true ∧
      firstTooWide (rGroups "3F1F1F1F1F3F".toList) = none ∧
      "3F1F1F1F1F3F".toList.length = 12 ∧ "3F1F1F1F1F3F".toList.all isHex = true := by decide

/-- IDecodeFieldHexResult: each clause. -/
theorem witness_i_field_hex_decoder :
    "20220064".toList.length ≠ 10 ∧ firstBad isHex "08 1020064".toList 10 2 ' ' = true ∧
      firstTooWide (iGroups "3F1F20FFFF".toList) = some (.rt, 32) ∧
      "3F1F20FFFF".toList.length = 10 ∧ "3F1F20FFFF".toList.all isHex = true ∧
      firstTooWide (iGroups "3F1F1FFFFF".toList) = none ∧
      "3F1F1FFFFF".toList.length = 10 ∧ "3F1F1FFFFF".toList.all isHex = true := by decide

/-- JDecodeFieldHexResult: each clause. -/
theorem witness_j_field_hex_decoder :
    "020003E8".toList.length ≠ 9 ∧ firstBad isHex "02000G3E8".toList 9 5 'G' = true ∧
      firstTooWide (jGroups "3F4000000".toList) = some (.address, 67108864) ∧
      "3F4000000".toList.length = 9 ∧ "3F4000000".toList.all isHex = true ∧
      firstTooWide (jGroups "3F3FFFFFF".toList) = none ∧
      "3F3FFFFFF".toList.length = 9 ∧ "3F3FFFFFF".toList.all isHex = true := by decide

/-- RRoundTrips, IRoundTrips, JRoundTripsAndMisread (opcodes on both sides of 15 and of 0),
BinaryStringIsTheWordBitByBit. -/
theorem witness_valid_tuples :
    RInts.valid ⟨63, 31, 31, 31, 31, 63⟩ = true ∧ IInts.valid ⟨63, 31, 31, 65535⟩ = true ∧
      JInts.valid ⟨0, 67108863⟩ = true ∧ JInts.valid ⟨1, 0⟩ = true ∧ JInts.valid ⟨15, 0⟩ = true ∧
      JInts.valid ⟨16, 0⟩ = true ∧ JInts.valid ⟨63, 67108863⟩ = true := by decide

/-- WordSerializersRoundTrip: texts that are read as a word, shorter and longer than 8 digits. -/
theorem witness_read_words :
    exec (.binToWord "11111111111111111111111111111111".toList) State.reset =
        .next ⟨[], [.ok (.word 0xFFFFFFFF#32)]⟩ ∧
      exec (.hexToWord "f".toList) State.reset = .next ⟨[], [.ok (.word 0x0000000F#32)]⟩ ∧
      exec (.hexToWord "0ffffFFFF".toList) State.reset = .next ⟨[], [.ok (.word 0xFFFFFFFF#32)]⟩ :=
  ⟨rfl, rfl, rfl⟩

/-- ErrorKindsAndTheirPorts: a port may raise a kind, and a call that does. -/
theorem witness_raised : mayRaise .hexToWord .integerOverflow = true ∧
    (Instr.hexToWord "100000000".toList).port = .hexToWord ∧
    kindOf (.integerOverflow 4294967296) = .integerOverflow ∧
    exec (.hexToWord "100000000".toList) State.reset =
      .next ⟨[], [.err (.integerOverflow 4294967296)]⟩ := ⟨rfl, rfl, rfl, rfl⟩

/-- ErrorReturnsOnlyTheError. -/
theorem witness_ill_formed : (Instr.iPack ⟨0, 0, 0, 65536⟩).wellFormed = false := by decide

/-- CallsAnsweredTogetherAsAlone: two presented calls and their results when each is made alone. -/
theorem witness_calls_alone :
    State.calls ⟨[⟨.jUnpack, .word 7⟩, ⟨.hexToWord, .text []⟩], []⟩ =
        [Instr.jUnpack 7#32, .hexToWord []].map encode ∧
      List.Forall₂ (fun i r => exec i State.reset = .next ⟨[], [r]⟩) [.jUnpack 7#32, .hexToWord []]
        [.ok (.jFields ⟨0, 7⟩), .err (.malformedInput (.badLength .atLeastOne 0))] :=
  ⟨rfl, .cons rfl (.cons rfl .nil)⟩

/-- OrderOfCallsChangesNoResult: a sequence and a reordering of it. -/
theorem witness_reordered :
    [Instr.jUnpack 7#32, .hexToWord []].Perm [.hexToWord [], .jUnpack 7#32] := by decide

/-- TypedRunNeverStops. -/
theorem witness_typed_state : busy.typed = true := by decide

/-- StepKeepsResultsLegal: a legal state whose step goes on. -/
theorem witness_legal_step : busy.legal = true ∧
    step busy = .next ⟨[], [.ok (.word 3#32), .ok (.jFields ⟨0, 7⟩)]⟩ := ⟨rfl, rfl⟩

/-- JAddressIsCarriedUnchanged: the limits of the opcode and of the address, from both sides. -/
theorem witness_addresses :
    ((0 : Int) ≤ 63 ∧ (63 : Int) ≤ 63) ∧ ((0 : Int) ≤ 67108863 ∧ (67108863 : Int) ≤ 67108863) ∧
      ((-1 : Int) < 0 ∨ (67108863 : Int) < -1) ∧ ((67108864 : Int) < 0 ∨ (67108863 : Int) < 67108864) ∧
      ((0xFFFFFFFF#32).toNat : Int) % 2 ^ 26 = 67108863 := by decide

/-- ImmediateIsUnsigned. -/
theorem witness_negative_immediate :
    inRange 63 6 = true ∧ inRange 31 5 = true ∧ inRange 0 5 = true ∧ (-1 : Int) < 0 := by decide

end Sys2Proof.Tests
end

/-! SUPPORT. What a port reads and which call it makes of it (rules R27, R71). -/

namespace Sys2Proof.Machine

open Sys2Proof.Laws.CallRoundTrip (asWord_toNat)

@[simp] theorem except_isOk_map {ε α β : Type} (g : α → β) (c : Except ε α) :
    (c.map g).isOk = c.isOk := by
  cases c <;> rfl

theorem except_isOk_iff {ε α : Type} {c : Except ε α} : c.isOk = true ↔ ∃ a, c = .ok a := by
  cases c <;> simp [Except.isOk, Except.toBool]

theorem asRInts_fields_isOk (vs : List Int) : (asRInts (.fields vs)).isOk = (vs.length == 6) := by
  rcases vs with _ | ⟨_, _ | ⟨_, _ | ⟨_, _ | ⟨_, _ | ⟨_, _ | ⟨_, _ | _⟩⟩⟩⟩⟩⟩ <;> rfl

theorem asIInts_fields_isOk (vs : List Int) : (asIInts (.fields vs)).isOk = (vs.length == 4) := by
  rcases vs with _ | ⟨_, _ | ⟨_, _ | ⟨_, _ | ⟨_, _ | _⟩⟩⟩⟩ <;> rfl

theorem asJInts_fields_isOk (vs : List Int) : (asJInts (.fields vs)).isOk = (vs.length == 2) := by
  rcases vs with _ | ⟨_, _ | ⟨_, _ | _⟩⟩ <;> rfl

theorem asWord_word_isOk (n : Nat) : (asWord (.word n)).isOk = decide (n < 2 ^ 32) := by
  by_cases h : n < 2 ^ 32 <;> simp only [asWord, h] <;> rfl

/-- What is presented is a call exactly when it is of its port's input type (rule R27). -/
theorem callTyped_eq_mayTake (c : Call) : callTyped c = mayTake c.port c.input := by
  obtain ⟨p, x⟩ := c
  cases x with
  | fields vs =>
    cases p
    case rPack | rEncodeBin | rEncodePackedHex | rEncodeFieldHex =>
      exact (except_isOk_map _ _).trans (asRInts_fields_isOk vs)
    case iPack | iEncodeBin | iEncodePackedHex | iEncodeFieldHex =>
      exact (except_isOk_map _ _).trans (asIInts_fields_isOk vs)
    case jPack | jEncodeBin | jEncodePackedHex | jEncodeFieldHex =>
      exact (except_isOk_map _ _).trans (asJInts_fields_isOk vs)
    all_goals rfl
  | word n =>
    cases p
    case rUnpack | iUnpack | jUnpack | wordToBin | wordToHex =>
      exact (except_isOk_map _ _).trans (asWord_word_isOk n)
    all_goals rfl
  | text t => cases p <;> rfl

theorem exists_decode_iff_mayTake (c : Call) :
    (∃ i, decode c = .ok i) ↔ mayTake c.port c.input = true := by
  rw [← callTyped_eq_mayTake, callTyped, except_isOk_iff]

/-- A value that its port does not take is refused by name. -/
theorem exists_decode_error_of_mayTake_eq_false {c : Call} (h : mayTake c.port c.input = false) :
    ∃ why, decode c = .error why := by
  cases hd : decode c with
  | error why => exact ⟨why, rfl⟩
  | ok i =>
    have := (exists_decode_iff_mayTake c).1 ⟨i, hd⟩
    simp [h] at this

/-- Presenting a call and decoding it gives the call back. -/
theorem decode_encode (i : Instr) : decode (encode i) = .ok i := by
  cases i
  case rUnpack w | iUnpack w | jUnpack w | wordToBin w | wordToHex w =>
    exact congrArg (Except.map _) (asWord_toNat w)
  all_goals rfl

/-- Every word at every port makes a call of that port (rules R71, R72). -/
theorem exists_decode_callOfWord (p : Port) (w : Word) :
    ∃ i, decode (callOfWord p w) = .ok i ∧ i.port = p := by
  cases p
  case rUnpack | iUnpack | jUnpack | wordToBin | wordToHex =>
    exact ⟨_, congrArg (Except.map _) (asWord_toNat w), rfl⟩
  all_goals exact ⟨_, rfl, rfl⟩

end Sys2Proof.Machine

/-! SUPPORT. What a step does, by what stands first in the queue (rules R22, R233; log entries
3 and 4), with the statements that follow from it. -/

namespace Sys2Proof.Machine

section Step

variable {s : State} {c : Call} {rest : List Call}

theorem step_of_calls_nil (hc : s.calls = []) : step s = .next s := by
  simp only [step, takeCall, hc]

theorem step_of_decode_ok {i : Instr} (hc : s.calls = c :: rest) (hd : decode c = .ok i) :
    step s = exec i { s with calls := rest } := by
  simp only [step, takeCall, hc, hd]

theorem step_of_decode_error {why : Mismatch} (hc : s.calls = c :: rest)
    (hd : decode c = .error why) : step s = .fault (.notAPortInput c.port why) := by
  simp only [step, takeCall, hc, hd]

/-- A step that answers takes one call off the queue and leaves the others. -/
theorem step_next_of_decode_ok {i : Instr} (hc : s.calls = c :: rest) (hd : decode c = .ok i) :
    step s = .next ⟨rest, s.results ++ [resultOf (computed i)]⟩ := by
  rw [step_of_decode_ok hc hd, exec_eq]

/-- The block takes what is of its port's type and nothing else (rule R27). -/
theorem exists_step_next_iff (hc : s.calls = c :: rest) :
    (∃ s', step s = .next s') ↔ mayTake c.port c.input = true := by
  rw [← exists_decode_iff_mayTake]
  constructor
  · rintro ⟨s', hs⟩
    cases hd : decode c with
    | ok i => exact ⟨i, rfl⟩
    | error why => simp [step_of_decode_error hc hd] at hs
  · rintro ⟨i, hd⟩
    exact ⟨_, step_next_of_decode_ok hc hd⟩

end Step

/-! Runs from a typed state (rules R234, R235). -/

theorem typed_eq_of_calls_cons {s : State} {c : Call} {rest : List Call} (hc : s.calls = c :: rest) :
    s.typed = (callTyped c && rest.all callTyped) := by
  rw [State.typed, hc, List.all_cons]

/-- A step from a typed state goes on, and the calls still waiting are typed. -/
theorem step_keeps_typed {s : State} (h : s.typed = true) :
    ∃ s', step s = .next s' ∧ s'.typed = true := by
  cases hc : s.calls with
  | nil => exact ⟨s, step_of_calls_nil hc, h⟩
  | cons c rest =>
    rw [typed_eq_of_calls_cons hc, Bool.and_eq_true] at h
    obtain ⟨hfirst, hrest⟩ := h
    obtain ⟨i, hd⟩ := except_isOk_iff.1 hfirst
    exact ⟨_, step_next_of_decode_ok hc hd, hrest⟩

/-- Settles O51, by induction on the number of steps. -/
theorem typedRunNeverStops : Obligations.TypedRunNeverStops := by
  intro s n
  induction n generalizing s with
  | zero => exact fun h => ⟨s, steps_zero s, h⟩
  | succ n ih =>
    intro h
    obtain ⟨t, hstep, ht⟩ := step_keeps_typed h
    rw [steps_succ hstep]
    exact ih t ht

/-- Settles O4, by what stands first in the queue. -/
theorem stepStopsOnlyOnIllTypedInput : Obligations.StepStopsOnlyOnIllTypedInput := by
  intro s
  constructor
  · cases hc : s.calls with
    | nil => simp [step_of_calls_nil hc]
    | cons c rest => simp [exists_step_next_iff hc]
  · intro c rest hc hill
    obtain ⟨why, hd⟩ := exists_decode_error_of_mayTake_eq_false hill
    exact ⟨why, step_of_decode_error hc hd⟩

/-- Settles O2, by unfolding the step at a queue whose first call decodes. -/
theorem stepAnswersDecodedCall : Obligations.StepAnswersDecodedCall :=
  fun _ _ _ _ => step_of_decode_ok

/-- Settles O1: the first call presented is the one the step takes and decodes. -/
theorem resetPresentsNothing : Obligations.ResetPresentsNothing :=
  ⟨reset_calls, reset_results, fun i =>
    step_of_decode_ok (present_calls (encode i) State.reset) (decode_encode i)⟩

/-- Settles O47: the result is what the call computes, in which no state stands. -/
theorem resultDependsOnTheCallAlone : Obligations.ResultDependsOnTheCallAlone :=
  fun i => ⟨resultOf (computed i), exec_eq i⟩

end Sys2Proof.Machine

/-! SUPPORT. Which errors a check can raise (rule R200, the errors column of rule R27). -/

namespace Sys2Proof.Machine

section Raises

variable {α β : Type}

/-- Every error of the computation is of one of the kinds `K`. -/
def RaisesOnly (K : ErrorKind → Bool) (c : Except Error α) : Prop :=
  ∀ e, c = .error e → K (kindOf e) = true

variable {K : ErrorKind → Bool}

theorem raisesOnly_ok (a : α) : RaisesOnly K (.ok a : Except Error α) := fun _ h => nomatch h

theorem raisesOnly_error {e : Error} (h : K (kindOf e) = true) :
    RaisesOnly K (.error e : Except Error α) := by
  rintro _ ⟨⟩
  exact h

theorem RaisesOnly.bind {c : Except Error α} {f : α → Except Error β} (hc : RaisesOnly K c)
    (hf : ∀ a, RaisesOnly K (f a)) : RaisesOnly K (c >>= f) := by
  cases c with
  | ok a => exact hf a
  | error e => exact raisesOnly_error (hc e rfl)

theorem rCheck_raisesOnly (h : K .fieldOutOfRange = true) (f : RInts) : RaisesOnly K (rCheck f) := by
  rw [rCheck_eq]
  split
  exacts [raisesOnly_error h, raisesOnly_ok _]

theorem iCheck_raisesOnly (h : K .fieldOutOfRange = true) (f : IInts) : RaisesOnly K (iCheck f) := by
  rw [iCheck_eq]
  split
  exacts [raisesOnly_error h, raisesOnly_ok _]

theorem jCheck_raisesOnly (h : K .fieldOutOfRange = true) (f : JInts) : RaisesOnly K (jCheck f) := by
  rw [jCheck_eq]
  split
  exacts [raisesOnly_error h, raisesOnly_ok _]

section Malformed

variable (hm : K .malformedInput = true)
include hm

theorem checkLength_raisesOnly (t : Text) (n : Nat) : RaisesOnly K (checkLength t n) := by
  rw [checkLength_eq]
  split
  · exact raisesOnly_ok _
  · exact raisesOnly_error hm

theorem checkAlphabet_raisesOnly (t : Text) (A : Alphabet) : RaisesOnly K (checkAlphabet t A) := by
  rcases all_or_first_bad (inAlphabet A) t with h | ⟨j, c, hc, hbad, hfirst⟩
  · rw [checkAlphabet_ok h]
    exact raisesOnly_ok _
  · rw [checkAlphabet_error hc hbad hfirst]
    exact raisesOnly_error hm

theorem fhField_raisesOnly (g : Text) (name : FieldName) (n : Nat) :
    RaisesOnly K (fhField g name n) := by
  unfold fhField
  split
  · exact raisesOnly_error hm
  · exact raisesOnly_ok _

/-- A decoder that checks a text's length and alphabet first raises what the rest of it raises. -/
theorem checked_raisesOnly (t : Text) (n : Nat) (A : Alphabet) {k : Except Error α}
    (hk : RaisesOnly K k) : RaisesOnly K (do checkLength t n; checkAlphabet t A; k) :=
  (checkLength_raisesOnly hm t n).bind fun _ => (checkAlphabet_raisesOnly hm t A).bind fun _ => hk

theorem binToWord_raisesOnly (t : Text) : RaisesOnly K (binToWord t) :=
  checked_raisesOnly hm t _ _ (raisesOnly_ok _)

theorem rDecodeBin_raisesOnly (t : Text) : RaisesOnly K (rDecodeBin t) :=
  checked_raisesOnly hm t _ _ (raisesOnly_ok _)

theorem iDecodeBin_raisesOnly (t : Text) : RaisesOnly K (iDecodeBin t) :=
  checked_raisesOnly hm t _ _ (raisesOnly_ok _)

theorem jDecodeBin_raisesOnly (t : Text) : RaisesOnly K (jDecodeBin t) :=
  checked_raisesOnly hm t _ _ (raisesOnly_ok _)

theorem rDecodeFieldHex_raisesOnly (t : Text) : RaisesOnly K (rDecodeFieldHex t) :=
  checked_raisesOnly hm t _ _ <|
    (fhField_raisesOnly hm _ _ _).bind fun _ => (fhField_raisesOnly hm _ _ _).bind fun _ =>
    (fhField_raisesOnly hm _ _ _).bind fun _ => (fhField_raisesOnly hm _ _ _).bind fun _ =>
    (fhField_raisesOnly hm _ _ _).bind fun _ => (fhField_raisesOnly hm _ _ _).bind fun _ =>
    raisesOnly_ok _

theorem iDecodeFieldHex_raisesOnly (t : Text) : RaisesOnly K (iDecodeFieldHex t) :=
  checked_raisesOnly hm t _ _ <|
    (fhField_raisesOnly hm _ _ _).bind fun _ => (fhField_raisesOnly hm _ _ _).bind fun _ =>
    (fhField_raisesOnly hm _ _ _).bind fun _ => (fhField_raisesOnly hm _ _ _).bind fun _ =>
    raisesOnly_ok _

theorem jDecodeFieldHex_raisesOnly (t : Text) : RaisesOnly K (jDecodeFieldHex t) :=
  checked_raisesOnly hm t _ _ <|
    (fhField_raisesOnly hm _ _ _).bind fun _ => (fhField_raisesOnly hm _ _ _).bind fun _ =>
    raisesOnly_ok _

theorem hexToWord_raisesOnly (ho : K .integerOverflow = true) (t : Text) :
    RaisesOnly K (hexToWord t) := by
  rw [hexToWord_eq]
  split
  · exact raisesOnly_error hm
  · refine (checkAlphabet_raisesOnly hm t .hex).bind fun _ => ?_
    split
    · exact raisesOnly_error ho
    · exact raisesOnly_ok _

end Malformed

end Raises

/-! What each port answers (rule R27). -/

theorem isBinText_binRender (v : Nat) : isBinText (binRender v 32) = true := by
  simp [isBinText, binRender_all]

theorem isHexText_hexRender (v n : Nat) : isHexText n (hexRender v n) = true := by
  simp [isHexText, hexRender_all_upper]

theorem isBinText_rBinText (F : RFields) : isBinText (rBinText F) = true :=
  rBinText_eq F ▸ isBinText_binRender _

theorem isBinText_iBinText (F : IFields) : isBinText (iBinText F) = true :=
  iBinText_eq F ▸ isBinText_binRender _

theorem isBinText_jBinText (F : JFields) : isBinText (jBinText F) = true :=
  jBinText_eq F ▸ isBinText_binRender _

theorem isHexText_rFieldHexText (F : RFields) : isHexText 12 (rFieldHexText F) = true := by
  simp [isHexText, rFieldHexText_length, rFieldHexText_upper]

theorem isHexText_iFieldHexText (F : IFields) : isHexText 10 (iFieldHexText F) = true := by
  simp [isHexText, iFieldHexText_length, iFieldHexText_upper]

theorem isHexText_jFieldHexText (F : JFields) : isHexText 9 (jFieldHexText F) = true := by
  simp [isHexText, jFieldHexText_length, jFieldHexText_upper]

section Answers

variable {α β : Type} {p : Port}

/-- A decoder answers for its port when its errors and whatever it can read do. -/
theorem mayAnswer_map {c : Except Error α} {g : α → Output} (herr : RaisesOnly (mayRaise p) c)
    (hok : ∀ a, mayReturn p (g a) = true) : mayAnswer p (resultOf (c.map g)) = true := by
  cases c with
  | ok a => exact hok a
  | error e => exact herr e rfl

/-- An encoder, a check followed by a rendering, answers for its port when both do. -/
theorem mayAnswer_encoder {check : Except Error α} {render : α → β} {c : Except Error β}
    {g : β → Output} (hc : c = check.map render) (herr : RaisesOnly (mayRaise p) check)
    (hok : ∀ a, mayReturn p (g (render a)) = true) :
    mayAnswer p (resultOf (c.map g)) = true := by
  subst hc
  cases check with
  | ok a => exact hok a
  | error e => exact herr e rfl

end Answers

/-- Every call's result is of its port's output type or an error its row lists (rule R27). -/
theorem computed_mayAnswer (i : Instr) : mayAnswer i.port (resultOf (computed i)) = true := by
  cases i with
  | rPack f => exact mayAnswer_encoder (rPack_eq f) (rCheck_raisesOnly rfl f) fun _ => rfl
  | rUnpack w => rfl
  | rEncodeBin f =>
    exact mayAnswer_encoder (rEncodeBin_eq f) (rCheck_raisesOnly rfl f) isBinText_rBinText
  | rDecodeBin t => exact mayAnswer_map (rDecodeBin_raisesOnly rfl t) fun _ => rfl
  | rEncodePackedHex f =>
    exact mayAnswer_encoder (rEncodePackedHex_eq f) (rCheck_raisesOnly rfl f)
      fun _ => isHexText_hexRender _ 8
  | rDecodePackedHex t =>
    exact mayAnswer_map ((hexToWord_raisesOnly rfl rfl t).bind fun _ => raisesOnly_ok _) fun _ => rfl
  | rEncodeFieldHex f =>
    exact mayAnswer_encoder (rEncodeFieldHex_eq f) (rCheck_raisesOnly rfl f) isHexText_rFieldHexText
  | rDecodeFieldHex t => exact mayAnswer_map (rDecodeFieldHex_raisesOnly rfl t) fun _ => rfl
  | iPack f => exact mayAnswer_encoder (iPack_eq f) (iCheck_raisesOnly rfl f) fun _ => rfl
  | iUnpack w => rfl
  | iEncodeBin f =>
    exact mayAnswer_encoder (iEncodeBin_eq f) (iCheck_raisesOnly rfl f) isBinText_iBinText
  | iDecodeBin t => exact mayAnswer_map (iDecodeBin_raisesOnly rfl t) fun _ => rfl
  | iEncodePackedHex f =>
    exact mayAnswer_encoder (iEncodePackedHex_eq f) (iCheck_raisesOnly rfl f)
      fun _ => isHexText_hexRender _ 8
  | iDecodePackedHex t =>
    exact mayAnswer_map ((hexToWord_raisesOnly rfl rfl t).bind fun _ => raisesOnly_ok _) fun _ => rfl
  | iEncodeFieldHex f =>
    exact mayAnswer_encoder (iEncodeFieldHex_eq f) (iCheck_raisesOnly rfl f) isHexText_iFieldHexText
  | iDecodeFieldHex t => exact mayAnswer_map (iDecodeFieldHex_raisesOnly rfl t) fun _ => rfl
  | jPack f => exact mayAnswer_encoder (jPack_eq f) (jCheck_raisesOnly rfl f) fun _ => rfl
  | jUnpack w => rfl
  | jEncodeBin f =>
    exact mayAnswer_encoder (jEncodeBin_eq f) (jCheck_raisesOnly rfl f) isBinText_jBinText
  | jDecodeBin t => exact mayAnswer_map (jDecodeBin_raisesOnly rfl t) fun _ => rfl
  | jEncodePackedHex f =>
    exact mayAnswer_encoder (jEncodePackedHex_eq f) (jCheck_raisesOnly rfl f)
      fun _ => isHexText_hexRender _ 8
  | jDecodePackedHex t =>
    exact mayAnswer_map ((hexToWord_raisesOnly rfl rfl t).bind fun _ => raisesOnly_ok _) fun _ => rfl
  | jEncodeFieldHex f =>
    exact mayAnswer_encoder (jEncodeFieldHex_eq f) (jCheck_raisesOnly rfl f) isHexText_jFieldHexText
  | jDecodeFieldHex t => exact mayAnswer_map (jDecodeFieldHex_raisesOnly rfl t) fun _ => rfl
  | wordToBin w => exact isBinText_binRender _
  | binToWord t => exact mayAnswer_map (binToWord_raisesOnly rfl t) fun _ => rfl
  | wordToHex w => exact isHexText_hexRender _ 8
  | hexToWord t => exact mayAnswer_map (hexToWord_raisesOnly rfl rfl t) fun _ => rfl

/-! The ports are numbered 0 to 27 (log entry 2). -/

theorem port_number_lt (p : Port) : p.number < 28 := by
  cases p <;> decide

theorem ofNumber_number (p : Port) : Port.ofNumber p.number = some p := by
  cases p <;> rfl

theorem exists_port_number_eq {n : Nat} (h : n < 28) : ∃ p : Port, p.number = n := by
  have table : ∀ n < 28, (Port.ofNumber n).map Port.number = some n := by decide
  obtain ⟨p, -, hp⟩ := Option.map_eq_some_iff.1 (table n h)
  exact ⟨p, hp⟩

/-- Settles O44: what a port takes is `callTyped_eq_mayTake`, what it answers
`computed_mayAnswer`. -/
theorem everyPortTakesAndAnswersItsTypes : Obligations.EveryPortTakesAndAnswersItsTypes := by
  refine ⟨fun p => ⟨port_number_lt p, ofNumber_number p⟩, fun n => exists_port_number_eq,
    fun p x => exists_decode_iff_mayTake ⟨p, x⟩, fun p => ?_, fun i s => ?_⟩
  · obtain ⟨i, -, hi⟩ := exists_decode_callOfWord p 0
    exact ⟨i, hi⟩
  · exact ⟨resultOf (computed i), computed_mayAnswer i, exec_eq i s⟩

end Sys2Proof.Machine

/-! SUPPORT. A queue of calls is answered one by one, each as if it were alone (rules R20, R49,
R233; log entry 9). -/

namespace Sys2Proof.Machine

/-- The whole queue is answered, each call by what it computes, in the order of the queue. -/
theorem steps_encoded_calls (is : List Instr) (old : List Result) :
    steps is.length ⟨is.map encode, old⟩ =
      .next ⟨[], old ++ is.map (resultOf ∘ computed)⟩ := by
  induction is generalizing old with
  | nil => simp
  | cons i is ih =>
    have hfirst : step ⟨(i :: is).map encode, old⟩ =
        .next ⟨is.map encode, old ++ [resultOf (computed i)]⟩ :=
      step_next_of_decode_ok rfl (decode_encode i)
    rw [List.length_cons, steps_succ hfirst, ih]
    simp

/-- Results that the calls give when each is made alone from reset are what the calls compute. -/
theorem eq_map_computed_of_alone {is : List Instr} {rs : List Result}
    (h : List.Forall₂ (fun i r => exec i State.reset = .next ⟨[], [r]⟩) is rs) :
    rs = is.map (resultOf ∘ computed) := by
  induction h with
  | nil => rfl
  | cons halone _ ih => rw [List.map_cons, ← ih, Function.comp_apply, exec_result.1 halone]

/-- Settles O49: alone and in the queue, a call is answered by what it computes. -/
theorem callsAnsweredTogetherAsAlone : Obligations.CallsAnsweredTogetherAsAlone := by
  rintro is rs ⟨calls, old⟩ hcalls halone
  obtain rfl : calls = is.map encode := hcalls
  rw [eq_map_computed_of_alone halone]
  exact steps_encoded_calls is old

/-- Settles O50: the pairs of a call and its result are the calls mapped by one function, so
reordering the calls reorders the pairs. -/
theorem orderOfCallsChangesNoResult : Obligations.OrderOfCallsChangesNoResult := by
  intro is js old hperm
  refine ⟨is.map (resultOf ∘ computed), js.map (resultOf ∘ computed), steps_encoded_calls is old,
    steps_encoded_calls js old, List.length_map _, List.length_map _, ?_⟩
  rw [← List.map_prod_left_eq_zip, ← List.map_prod_left_eq_zip]
  exact hperm.map _

end Sys2Proof.Machine

/-! SUPPORT. The J address between the tuple and bits 25:0 of the word (rule R43). -/

namespace Sys2Proof.Machine

/-- A valid J tuple is packed (rule R170). -/
theorem jPack_of_valid {f : JInts} (h : f.valid = true) : jPack f = .ok (jWord (jOfInts f)) := by
  rw [jPack_eq, jCheck_eq, (jValid_iff f).1 h, except_map_ok]

/-- The first J field out of range is the error (rules R101, R170). -/
theorem jPack_of_firstOutOfRange {f : JInts} {name : FieldName} {v : Int}
    (h : firstOutOfRange (jNamed f) = some (name, v)) :
    jPack f = .error (.fieldOutOfRange name v (Config.width name)) := by
  rw [jPack_eq, jCheck_eq, h, except_map_error]

/-- The low 26 bits of a J word are the address of its tuple. -/
theorem jWord_mod_eq_address (F : JFields) : (jWord F).toNat % 2 ^ 26 = F.address.toNat := by
  rw [jWord_toNat, mul_two_pow_add_mod F.address.isLt]

theorem firstOutOfRange_jNamed_address {o a : Int} (ho : inRange o 6 = true)
    (ha : inRange a 26 = false) : firstOutOfRange (jNamed ⟨o, a⟩) = some (.address, a) := by
  simp [firstOutOfRange, jNamed, Config.width, ho, ha]

/-- Settles O55, by whether the address is in range. -/
theorem jAddressIsCarriedUnchanged : Obligations.JAddressIsCarriedUnchanged := by
  intro o a s ho ho'
  have hop : inRange o 6 = true := (inRange_iff o 6).2 ⟨ho, by omega⟩
  constructor
  · intro ha ha'
    have haddr : inRange a 26 = true := (inRange_iff a 26).2 ⟨ha, by omega⟩
    have hvalid : (JInts.mk o a).valid = true := by simp [JInts.valid, hop, haddr]
    refine ⟨jWord (jOfInts ⟨o, a⟩), ?_, ?_, fun w hw => ⟨jFields w, ?_, ?_⟩⟩
    · have hlow := jWord_mod_eq_address (jOfInts ⟨o, a⟩)
      have hint : ((jOfInts ⟨o, a⟩).address.toNat : Int) = a := ofInt_toNat haddr
      omega
    · exact exec_result.2 (by rw [computed, jPack_of_valid hvalid]; rfl)
    · have hlow := (jFields_toNat w).2
      omega
    · exact exec_result.2 rfl
  · intro ha
    have haddr : inRange a 26 = false := by
      rw [← Bool.not_eq_true, inRange_iff]
      omega
    have hfirst := firstOutOfRange_jNamed_address hop haddr
    exact exec_result.2 (by rw [computed, jPack_of_firstOutOfRange hfirst]; rfl)

end Sys2Proof.Machine

/-! SUPPORT. The call that a word at a port encodes, and the word of that call: the two undo each other
on valid calls in canonical text (rules R61 to R66, R71, R72; log entries 2 and 11). -/

namespace Sys2Proof.Machine

/-! What is presented for the word of a valid input is that input. -/

theorem rToInts_rFields_wordOf {f : RInts} (h : f.valid = true) :
    rToInts (rFields (rWord (rOfInts f))) = f := by
  rw [rFields_rWord, rToInts_rOfInts h]

theorem iToInts_iFields_wordOf {f : IInts} (h : f.valid = true) :
    iToInts (iFields (iWord (iOfInts f))) = f := by
  rw [iFields_iWord, iToInts_iOfInts h]

theorem jToInts_jFields_wordOf {f : JInts} (h : f.valid = true) :
    jToInts (jFields (jWord (jOfInts f))) = f := by
  rw [jFields_jWord, jToInts_jOfInts h]

/-- A legal binary text is the text of the word it is read as (rule R115). -/
theorem binRender_ofNat_binValue {t : Text} (h : binTextValid t = true) :
    binRender (BitVec.ofNat 32 (binValue t)).toNat 32 = t := by
  simp only [binTextValid, Bool.and_eq_true, beq_iff_eq] at h
  obtain ⟨hlen, hbin⟩ := h
  rw [BitVec.toNat_ofNat, binRender_mod, ← hlen, binRender_binValue t hbin]

/-- Eight upper-case digits are the text of the word they are read as (rules R65, R115). -/
theorem hexRender_ofNat_hexValue {t : Text} (h : packedHexCanonical t = true) :
    hexRender (BitVec.ofNat 32 (hexValue t)).toNat 8 = t := by
  simp only [packedHexCanonical, upperOnly, Bool.and_eq_true, beq_iff_eq] at h
  obtain ⟨hlen, hupper⟩ := h
  have hmod : (BitVec.ofNat 32 (hexValue t)).toNat = hexValue t % 16 ^ 8 := BitVec.toNat_ofNat _ _
  rw [hmod, hexRender_mod, ← hlen, hexRender_hexValue hupper]

theorem rFieldHexText_wordOf {t : Text} (hv : rFieldHexValid t = true) (hu : upperOnly t = true) :
    rFieldHexText (rFields (rWord (rOfFieldHex t))) = t := by
  rw [rFields_rWord, rFieldHexText_ofFieldHex hv hu]

theorem iFieldHexText_wordOf {t : Text} (hv : iFieldHexValid t = true) (hu : upperOnly t = true) :
    iFieldHexText (iFields (iWord (iOfFieldHex t))) = t := by
  rw [iFields_iWord, iFieldHexText_ofFieldHex hv hu]

theorem jFieldHexText_wordOf {t : Text} (hv : jFieldHexValid t = true) (hu : upperOnly t = true) :
    jFieldHexText (jFields (jWord (jOfFieldHex t))) = t := by
  rw [jFields_jWord, jFieldHexText_ofFieldHex hv hu]

/-- The word of a valid call in canonical text stands, at the call's port, for that call. -/
theorem callOfWord_wordOf {i : Instr} (hv : i.wellFormed = true) (hc : i.canonical = true) :
    callOfWord i.port (wordOf i) = encode i := by
  cases i
  case rPack f | rEncodeBin f | rEncodePackedHex f | rEncodeFieldHex f =>
    exact congrArg (fun g => Call.mk _ (ofRInts g)) (rToInts_rFields_wordOf hv)
  case iPack f | iEncodeBin f | iEncodePackedHex f | iEncodeFieldHex f =>
    exact congrArg (fun g => Call.mk _ (ofIInts g)) (iToInts_iFields_wordOf hv)
  case jPack f | jEncodeBin f | jEncodePackedHex f | jEncodeFieldHex f =>
    exact congrArg (fun g => Call.mk _ (ofJInts g)) (jToInts_jFields_wordOf hv)
  case rUnpack | iUnpack | jUnpack | wordToBin | wordToHex => rfl
  case rDecodeBin t | iDecodeBin t | jDecodeBin t | binToWord t =>
    exact congrArg (fun u => Call.mk _ (.text u)) (binRender_ofNat_binValue hv)
  case rDecodePackedHex t | iDecodePackedHex t | jDecodePackedHex t | hexToWord t =>
    exact congrArg (fun u => Call.mk _ (.text u)) (hexRender_ofNat_hexValue hc)
  case rDecodeFieldHex t => exact congrArg (fun u => Call.mk _ (.text u)) (rFieldHexText_wordOf hv hc)
  case iDecodeFieldHex t => exact congrArg (fun u => Call.mk _ (.text u)) (iFieldHexText_wordOf hv hc)
  case jDecodeFieldHex t => exact congrArg (fun u => Call.mk _ (.text u)) (jFieldHexText_wordOf hv hc)

/-- Forty bits hold a word and its port's number, and they are read apart (log entry 2). -/
theorem callOfTableWord_number (p : Port) (w : Word) :
    callOfTableWord 40 (p.number * 2 ^ 32 + w.toNat) = some (callOfWord p w) := by
  have hp := port_number_lt p
  have hw := w.isLt
  have hfits : (p.number * 2 ^ 32 + w.toNat) % 2 ^ 40 = p.number * 2 ^ 32 + w.toNat :=
    Nat.mod_eq_of_lt (by omega)
  have hword : BitVec.ofNat 32 (p.number * 2 ^ 32 + w.toNat) = w := by
    apply BitVec.eq_of_toNat_eq
    rw [BitVec.toNat_ofNat, mul_two_pow_add_mod hw]
  rw [callOfTableWord, hfits, mul_two_pow_add_div hw, ofNumber_number, hword, Option.map_some]

/-- Settles O8: the number is read apart into port and word, which stand for the call. -/
theorem decodeOfEncodedNumberIsTheCall : Obligations.DecodeOfEncodedNumberIsTheCall := by
  intro i hv hc
  rw [decodeTableWord, encodeNumber, callOfTableWord_number, callOfWord_wordOf hv hc,
    Option.bind_some, decode_encode]
  rfl

/-- The call whose input is the word `w` laid out for the port `p` (rules R61 to R66). -/
def instrOfWord (p : Port) (w : Word) : Instr :=
  match p with
  | .rPack => .rPack (rToInts (rFields w))
  | .rUnpack => .rUnpack w
  | .rEncodeBin => .rEncodeBin (rToInts (rFields w))
  | .rDecodeBin => .rDecodeBin (binRender w.toNat 32)
  | .rEncodePackedHex => .rEncodePackedHex (rToInts (rFields w))
  | .rDecodePackedHex => .rDecodePackedHex (hexRender w.toNat 8)
  | .rEncodeFieldHex => .rEncodeFieldHex (rToInts (rFields w))
  | .rDecodeFieldHex => .rDecodeFieldHex (rFieldHexText (rFields w))
  | .iPack => .iPack (iToInts (iFields w))
  | .iUnpack => .iUnpack w
  | .iEncodeBin => .iEncodeBin (iToInts (iFields w))
  | .iDecodeBin => .iDecodeBin (binRender w.toNat 32)
  | .iEncodePackedHex => .iEncodePackedHex (iToInts (iFields w))
  | .iDecodePackedHex => .iDecodePackedHex (hexRender w.toNat 8)
  | .iEncodeFieldHex => .iEncodeFieldHex (iToInts (iFields w))
  | .iDecodeFieldHex => .iDecodeFieldHex (iFieldHexText (iFields w))
  | .jPack => .jPack (jToInts (jFields w))
  | .jUnpack => .jUnpack w
  | .jEncodeBin => .jEncodeBin (jToInts (jFields w))
  | .jDecodeBin => .jDecodeBin (binRender w.toNat 32)
  | .jEncodePackedHex => .jEncodePackedHex (jToInts (jFields w))
  | .jDecodePackedHex => .jDecodePackedHex (hexRender w.toNat 8)
  | .jEncodeFieldHex => .jEncodeFieldHex (jToInts (jFields w))
  | .jDecodeFieldHex => .jDecodeFieldHex (jFieldHexText (jFields w))
  | .wordToBin => .wordToBin w
  | .binToWord => .binToWord (binRender w.toNat 32)
  | .wordToHex => .wordToHex w
  | .hexToWord => .hexToWord (hexRender w.toNat 8)

theorem instrOfWord_port (p : Port) (w : Word) : (instrOfWord p w).port = p := by
  cases p <;> rfl

/-- `instrOfWord` is the decoder's reading of the word at the port. -/
theorem decode_callOfWord (p : Port) (w : Word) :
    decode (callOfWord p w) = .ok (instrOfWord p w) := by
  have hencode : callOfWord p w = encode (instrOfWord p w) := by cases p <;> rfl
  rw [hencode, decode_encode]

/-! The texts an encoder writes are valid. -/

theorem binTextValid_binRender (v : Nat) : binTextValid (binRender v 32) = true := by
  simp [binTextValid, binRender_all]

theorem packedHexValid_hexRender (w : Word) : packedHexValid (hexRender w.toNat 8) = true := by
  have hne : hexRender w.toNat 8 ≠ [] := List.ne_nil_of_length_pos (by simp)
  have hlt : hexValue (hexRender w.toNat 8) < 2 ^ 32 := by
    rw [hexValue_hexRender_of_lt w.isLt]
    exact w.isLt
  simpa [packedHexValid, hne, hexRender_all] using hlt

theorem packedHexCanonical_hexRender (v : Nat) : packedHexCanonical (hexRender v 8) = true := by
  simp [packedHexCanonical, upperOnly, hexRender_all_upper]

/-- A group that holds a field's own digits fits the field (rule R114). -/
theorem groupFits_of_slice_eq {t : Text} {a b n : Nat} {x : BitVec n} (hn : n ≤ 26)
    (h : slice t a b = fhRender x.toNat n) : groupFits t a b n = true := by
  rw [groupFits, h, hexValue_fhRender x hn]
  exact decide_eq_true x.isLt

theorem rFieldHexValid_rFieldHexText (F : RFields) : rFieldHexValid (rFieldHexText F) = true := by
  obtain ⟨hop, hrs, hrt, hrd, hshamt, hfunct⟩ := rFieldHexText_cut F
  simp [rFieldHexValid, rFieldHexText_length, all_isHex_of_upper (rFieldHexText_upper F),
    groupFits_of_slice_eq _ hop, groupFits_of_slice_eq _ hrs, groupFits_of_slice_eq _ hrt,
    groupFits_of_slice_eq _ hrd, groupFits_of_slice_eq _ hshamt, groupFits_of_slice_eq _ hfunct]

theorem iFieldHexValid_iFieldHexText (F : IFields) : iFieldHexValid (iFieldHexText F) = true := by
  obtain ⟨hop, hrs, hrt, himm⟩ := iFieldHexText_cut F
  simp [iFieldHexValid, iFieldHexText_length, all_isHex_of_upper (iFieldHexText_upper F),
    groupFits_of_slice_eq _ hop, groupFits_of_slice_eq _ hrs, groupFits_of_slice_eq _ hrt,
    groupFits_of_slice_eq _ himm]

theorem jFieldHexValid_jFieldHexText (F : JFields) : jFieldHexValid (jFieldHexText F) = true := by
  obtain ⟨hop, haddr⟩ := jFieldHexText_cut F
  simp [jFieldHexValid, jFieldHexText_length, all_isHex_of_upper (jFieldHexText_upper F),
    groupFits_of_slice_eq _ hop, groupFits_of_slice_eq _ haddr]

theorem instrOfWord_wellFormed (p : Port) (w : Word) : (instrOfWord p w).wellFormed = true := by
  cases p
  case rPack | rEncodeBin | rEncodePackedHex | rEncodeFieldHex => exact rToInts_valid _
  case iPack | iEncodeBin | iEncodePackedHex | iEncodeFieldHex => exact iToInts_valid _
  case jPack | jEncodeBin | jEncodePackedHex | jEncodeFieldHex => exact jToInts_valid _
  case rUnpack | iUnpack | jUnpack | wordToBin | wordToHex => rfl
  case rDecodeBin | iDecodeBin | jDecodeBin | binToWord => exact binTextValid_binRender _
  case rDecodePackedHex | iDecodePackedHex | jDecodePackedHex | hexToWord =>
    exact packedHexValid_hexRender w
  case rDecodeFieldHex => exact rFieldHexValid_rFieldHexText _
  case iDecodeFieldHex => exact iFieldHexValid_iFieldHexText _
  case jDecodeFieldHex => exact jFieldHexValid_jFieldHexText _

theorem instrOfWord_canonical (p : Port) (w : Word) : (instrOfWord p w).canonical = true := by
  cases p
  case rDecodePackedHex | iDecodePackedHex | jDecodePackedHex | hexToWord =>
    exact packedHexCanonical_hexRender _
  case rDecodeFieldHex => exact rFieldHexText_upper _
  case iDecodeFieldHex => exact iFieldHexText_upper _
  case jDecodeFieldHex => exact jFieldHexText_upper _
  all_goals rfl

/-! The word of what a word stands for is the word itself. -/

theorem rWord_rOfInts_rToInts (w : Word) : rWord (rOfInts (rToInts (rFields w))) = w := by
  rw [rOfInts_rToInts, rWord_rFields]

theorem iWord_iOfInts_iToInts (w : Word) : iWord (iOfInts (iToInts (iFields w))) = w := by
  rw [iOfInts_iToInts, iWord_iFields]

theorem jWord_jOfInts_jToInts (w : Word) : jWord (jOfInts (jToInts (jFields w))) = w := by
  rw [jOfInts_jToInts, jWord_jFields]

theorem ofNat_binValue_binRender (w : Word) :
    BitVec.ofNat 32 (binValue (binRender w.toNat 32)) = w := by
  rw [binValue_binRender, Nat.mod_eq_of_lt w.isLt, BitVec.ofNat_toNat, BitVec.setWidth_eq]

theorem ofNat_hexValue_hexRender (w : Word) :
    BitVec.ofNat 32 (hexValue (hexRender w.toNat 8)) = w := by
  rw [hexValue_hexRender_of_lt w.isLt, BitVec.ofNat_toNat, BitVec.setWidth_eq]

theorem wordOf_instrOfWord (p : Port) (w : Word) : wordOf (instrOfWord p w) = w := by
  cases p
  case rPack | rEncodeBin | rEncodePackedHex | rEncodeFieldHex => exact rWord_rOfInts_rToInts w
  case iPack | iEncodeBin | iEncodePackedHex | iEncodeFieldHex => exact iWord_iOfInts_iToInts w
  case jPack | jEncodeBin | jEncodePackedHex | jEncodeFieldHex => exact jWord_jOfInts_jToInts w
  case rUnpack | iUnpack | jUnpack | wordToBin | wordToHex => rfl
  case rDecodeBin | iDecodeBin | jDecodeBin | binToWord => exact ofNat_binValue_binRender w
  case rDecodePackedHex | iDecodePackedHex | jDecodePackedHex | hexToWord =>
    exact ofNat_hexValue_hexRender w
  case rDecodeFieldHex => exact (congrArg rWord (rOfFieldHex_text _)).trans (rWord_rFields w)
  case iDecodeFieldHex => exact (congrArg iWord (iOfFieldHex_text _)).trans (iWord_iFields w)
  case jDecodeFieldHex => exact (congrArg jWord (jOfFieldHex_text _)).trans (jWord_jFields w)

theorem encodeNumber_instrOfWord (p : Port) (w : Word) :
    encodeNumber (instrOfWord p w) = p.number * 2 ^ 32 + w.toNat := by
  rw [encodeNumber, instrOfWord_port, wordOf_instrOfWord]

/-- Settles O9: the call is `instrOfWord p w`, and O8 decodes any two calls of one number alike. -/
theorem everyNumberIsOneCall : Obligations.EveryNumberIsOneCall := by
  intro p w
  have hnumber := encodeNumber_instrOfWord p w
  have hdecode : decodeTableWord 40 (p.number * 2 ^ 32 + w.toNat) = some (instrOfWord p w) :=
    hnumber ▸ decodeOfEncodedNumberIsTheCall _ (instrOfWord_wellFormed p w) (instrOfWord_canonical p w)
  refine ⟨instrOfWord p w,
    ⟨instrOfWord_wellFormed p w, instrOfWord_canonical p w, hnumber, hdecode⟩, fun j hv hc hj => ?_⟩
  have hdecodeJ := decodeOfEncodedNumberIsTheCall j hv hc
  rw [hj, hdecode] at hdecodeJ
  exact (Option.some.inj hdecodeJ).symm

/-- A decoded call is at the port whose constructor was put around its input. -/
theorem port_of_map_eq_ok {α : Type} {p : Port} {make : α → Instr} {x : Except Mismatch α} {i : Instr}
    (hmake : ∀ a, (make a).port = p) (h : x.map make = .ok i) : i.port = p := by
  cases x with
  | ok a =>
    obtain rfl : make a = i := Except.ok.inj h
    exact hmake a
  | error why => cases h

theorem port_of_decode_eq_ok {c : Call} {i : Instr} (h : decode c = .ok i) : i.port = c.port := by
  obtain ⟨p, x⟩ := c
  cases p <;> exact port_of_map_eq_ok (fun _ => rfl) h

/-- Settles O7: the decoder's only choice is by the port, and every word decodes at every port. -/
theorem portAloneSelectsOperation : Obligations.PortAloneSelectsOperation :=
  ⟨fun _ _ => port_of_decode_eq_ok, exists_decode_callOfWord⟩

/-- Settles O5: the numbered call stands first in the queue and decodes to the instruction. -/
theorem fetchedWordRunsNext : Obligations.FetchedWordRunsNext := by
  intro s nbits w i h
  obtain ⟨c, hcall, hdecode⟩ := Option.bind_eq_some_iff.1 h
  have hc : decode c = .ok i := by
    cases hd : decode c with
    | ok j => rw [hd] at hdecode; exact congrArg _ (Option.some.inj hdecode)
    | error why => rw [hd] at hdecode; cases hdecode
  rw [State.withFetchWord, hcall]
  exact step_of_decode_ok (present_calls c s) hc

/-- Settles O6, by evaluating the decoder on each of the six words. -/
theorem writtenOutWordsDecode : Obligations.WrittenOutWordsDecode := by
  unfold Obligations.WrittenOutWordsDecode
  decide

end Sys2Proof.Machine

/-! SUPPORT. A call is answered Ok exactly when its input is valid (rules R72, R75, R101, R204): each
check passes exactly on what the well-formedness test asks of it. -/

namespace Sys2Proof.Machine

/-! Checks in sequence pass when each passes, where no check reads what an earlier one leaves. -/

theorem bind_isOk {α β : Type} {c : Except Error α} {f : α → Except Error β} {a b : Bool}
    (hc : c.isOk = a) (hf : ∀ x, (f x).isOk = b) : (c >>= f).isOk = (a && b) := by
  subst hc
  cases c with
  | ok x => exact hf x
  | error e => rfl

theorem ok_isOk {α : Type} (a : α) : (.ok a : Except Error α).isOk = true := rfl

theorem checkLength_isOk (t : Text) (n : Nat) : (checkLength t n).isOk = (t.length == n) := by
  rw [checkLength_eq]
  by_cases h : t.length = n
  · simp only [if_pos h, beq_iff_eq.2 h]
    rfl
  · simp only [if_neg h, beq_eq_false_iff_ne.2 h]
    rfl

theorem checkAlphabet_isOk (t : Text) (A : Alphabet) :
    (checkAlphabet t A).isOk = t.all (inAlphabet A) := by
  rcases all_or_first_bad (inAlphabet A) t with h | ⟨j, c, hc, hbad, hfirst⟩
  · rw [checkAlphabet_ok h, h]
    rfl
  · have hall : t.all (inAlphabet A) = false :=
      List.all_eq_false.2 ⟨c, List.mem_of_getElem? hc, by simp [hbad]⟩
    rw [checkAlphabet_error hc hbad hfirst, hall]
    rfl

theorem fhField_isOk (g : Text) (name : FieldName) (n : Nat) :
    (fhField g name n).isOk = decide (hexValue g < 2 ^ n) := by
  unfold fhField
  by_cases h : hexValue g < 2 ^ n
  · rw [if_neg (Nat.not_le.2 h), decide_eq_true h]
    rfl
  · rw [if_pos (Nat.not_lt.1 h), decide_eq_false h]
    rfl

/-- A decoder that checks a text's length and alphabet first passes when those and the rest do. -/
theorem checked_isOk {α : Type} {k : Except Error α} {b : Bool} (t : Text) (n : Nat) (A : Alphabet)
    (hk : k.isOk = b) : (do checkLength t n; checkAlphabet t A; k).isOk =
      (t.length == n && (t.all (inAlphabet A) && b)) :=
  bind_isOk (checkLength_isOk t n) fun _ => bind_isOk (checkAlphabet_isOk t A) fun _ => hk

/-- A decoder of binary text passes exactly on 32 binary digits (rule R75). -/
theorem binChecked_isOk {α : Type} (t : Text) (a : α) :
    (do checkLength t Config.binLen; checkAlphabet t .bin; return a : Except Error α).isOk =
      binTextValid t :=
  (checked_isOk t Config.binLen .bin (ok_isOk a)).trans (congrArg _ (Bool.and_true _))

theorem rCheck_isOk (f : RInts) : (rCheck f).isOk = f.valid := by
  rw [Bool.eq_iff_iff, rValid_iff, rCheck_eq]
  cases firstOutOfRange (rNamed f) <;> simp [Except.isOk, Except.toBool]

theorem iCheck_isOk (f : IInts) : (iCheck f).isOk = f.valid := by
  rw [Bool.eq_iff_iff, iValid_iff, iCheck_eq]
  cases firstOutOfRange (iNamed f) <;> simp [Except.isOk, Except.toBool]

theorem jCheck_isOk (f : JInts) : (jCheck f).isOk = f.valid := by
  rw [Bool.eq_iff_iff, jValid_iff, jCheck_eq]
  cases firstOutOfRange (jNamed f) <;> simp [Except.isOk, Except.toBool]

/-- An encoder, a check followed by a rendering, passes when its check does. -/
theorem encoder_isOk {α β : Type} {check : Except Error α} {render : α → β} {c : Except Error β}
    {g : β → Output} (hc : c = check.map render) : (c.map g).isOk = check.isOk := by
  rw [hc, except_isOk_map, except_isOk_map]

/-! The decoders. -/

theorem hexToWord_isOk (t : Text) : (hexToWord t).isOk = packedHexValid t := by
  rw [hexToWord_eq]
  cases t with
  | nil => rfl
  | cons c t =>
    refine (bind_isOk (checkAlphabet_isOk (c :: t) .hex) fun _ => ?_ :
      _ = (_ && decide (hexValue (c :: t) < 2 ^ 32)))
    by_cases h : hexValue (c :: t) < 2 ^ 32
    · rw [if_neg (Nat.not_le.2 h), decide_eq_true h, ok_isOk]
    · rw [if_pos (Nat.not_lt.1 h), decide_eq_false h]
      rfl

/-- `decode_packed_hex` passes when `hex_to_word` does: every word unpacks (rule R72). -/
theorem hexToWord_unpack_isOk {α : Type} (t : Text) (unpack : Word → α) :
    (do let w ← hexToWord t; return unpack w : Except Error α).isOk = packedHexValid t :=
  (bind_isOk (hexToWord_isOk t) fun w => ok_isOk (unpack w)).trans (Bool.and_true _)

theorem rDecodeFieldHex_isOk (t : Text) : (rDecodeFieldHex t).isOk = rFieldHexValid t :=
  calc (rDecodeFieldHex t).isOk
    _ = (t.length == 12 && (t.all isHex && (groupFits t 0 2 6 && (groupFits t 2 4 5 &&
          (groupFits t 4 6 5 && (groupFits t 6 8 5 && (groupFits t 8 10 5 &&
          (groupFits t 10 12 6 && true)))))))) :=
      checked_isOk t 12 .hex <|
        bind_isOk (fhField_isOk _ _ _) fun _ => bind_isOk (fhField_isOk _ _ _) fun _ =>
        bind_isOk (fhField_isOk _ _ _) fun _ => bind_isOk (fhField_isOk _ _ _) fun _ =>
        bind_isOk (fhField_isOk _ _ _) fun _ => bind_isOk (fhField_isOk _ _ _) fun _ => ok_isOk _
    _ = rFieldHexValid t := by simp only [rFieldHexValid, Bool.and_assoc, Bool.and_true]

theorem iDecodeFieldHex_isOk (t : Text) : (iDecodeFieldHex t).isOk = iFieldHexValid t :=
  calc (iDecodeFieldHex t).isOk
    _ = (t.length == 10 && (t.all isHex && (groupFits t 0 2 6 && (groupFits t 2 4 5 &&
          (groupFits t 4 6 5 && (groupFits t 6 10 16 && true)))))) :=
      checked_isOk t 10 .hex <|
        bind_isOk (fhField_isOk _ _ _) fun _ => bind_isOk (fhField_isOk _ _ _) fun _ =>
        bind_isOk (fhField_isOk _ _ _) fun _ => bind_isOk (fhField_isOk _ _ _) fun _ => ok_isOk _
    _ = iFieldHexValid t := by simp only [iFieldHexValid, Bool.and_assoc, Bool.and_true]

theorem jDecodeFieldHex_isOk (t : Text) : (jDecodeFieldHex t).isOk = jFieldHexValid t :=
  calc (jDecodeFieldHex t).isOk
    _ = (t.length == 9 && (t.all isHex && (groupFits t 0 2 6 && (groupFits t 2 9 26 && true)))) :=
      checked_isOk t 9 .hex <|
        bind_isOk (fhField_isOk _ _ _) fun _ => bind_isOk (fhField_isOk _ _ _) fun _ => ok_isOk _
    _ = jFieldHexValid t := by simp only [jFieldHexValid, Bool.and_assoc, Bool.and_true]

theorem computed_isOk (i : Instr) : (computed i).isOk = i.wellFormed := by
  cases i with
  | rPack f => exact (encoder_isOk (rPack_eq f)).trans (rCheck_isOk f)
  | rUnpack w => rfl
  | rEncodeBin f => exact (encoder_isOk (rEncodeBin_eq f)).trans (rCheck_isOk f)
  | rDecodeBin t => exact (except_isOk_map _ _).trans (binChecked_isOk t _)
  | rEncodePackedHex f => exact (encoder_isOk (rEncodePackedHex_eq f)).trans (rCheck_isOk f)
  | rDecodePackedHex t => exact (except_isOk_map _ _).trans (hexToWord_unpack_isOk t rUnpack)
  | rEncodeFieldHex f => exact (encoder_isOk (rEncodeFieldHex_eq f)).trans (rCheck_isOk f)
  | rDecodeFieldHex t => exact (except_isOk_map _ _).trans (rDecodeFieldHex_isOk t)
  | iPack f => exact (encoder_isOk (iPack_eq f)).trans (iCheck_isOk f)
  | iUnpack w => rfl
  | iEncodeBin f => exact (encoder_isOk (iEncodeBin_eq f)).trans (iCheck_isOk f)
  | iDecodeBin t => exact (except_isOk_map _ _).trans (binChecked_isOk t _)
  | iEncodePackedHex f => exact (encoder_isOk (iEncodePackedHex_eq f)).trans (iCheck_isOk f)
  | iDecodePackedHex t => exact (except_isOk_map _ _).trans (hexToWord_unpack_isOk t iUnpack)
  | iEncodeFieldHex f => exact (encoder_isOk (iEncodeFieldHex_eq f)).trans (iCheck_isOk f)
  | iDecodeFieldHex t => exact (except_isOk_map _ _).trans (iDecodeFieldHex_isOk t)
  | jPack f => exact (encoder_isOk (jPack_eq f)).trans (jCheck_isOk f)
  | jUnpack w => rfl
  | jEncodeBin f => exact (encoder_isOk (jEncodeBin_eq f)).trans (jCheck_isOk f)
  | jDecodeBin t => exact (except_isOk_map _ _).trans (binChecked_isOk t _)
  | jEncodePackedHex f => exact (encoder_isOk (jEncodePackedHex_eq f)).trans (jCheck_isOk f)
  | jDecodePackedHex t => exact (except_isOk_map _ _).trans (hexToWord_unpack_isOk t jUnpack)
  | jEncodeFieldHex f => exact (encoder_isOk (jEncodeFieldHex_eq f)).trans (jCheck_isOk f)
  | jDecodeFieldHex t => exact (except_isOk_map _ _).trans (jDecodeFieldHex_isOk t)
  | wordToBin w => rfl
  | binToWord t => exact (except_isOk_map _ _).trans (binChecked_isOk t _)
  | wordToHex w => rfl
  | hexToWord t => exact (except_isOk_map _ _).trans (hexToWord_isOk t)

/-- Settles O46: exec returns what is computed, which is Ok exactly on valid input. -/
theorem callSucceedsExactlyOnValidInput : Obligations.CallSucceedsExactlyOnValidInput := by
  intro i s
  simp only [exec_result, ← computed_isOk i]
  cases computed i with
  | ok v => simp [Except.isOk, Except.toBool]
  | error e => simp [Except.isOk, Except.toBool]

end Sys2Proof.Machine

/-! SUPPORT. The three layouts over one word, and each encoder's answer once its check is decided
(rules R64, R70, R74). -/

namespace Sys2Proof.Machine

/-! The bits that the layouts share (rule R74). -/

theorem iFields_immediate_eq_or (w : Word) :
    (iFields w).immediate.toNat = (rFields w).rd.toNat <<< 11 ||| (rFields w).shamt.toNat <<< 6 |||
      (rFields w).funct.toNat := by
  obtain ⟨-, -, -, hrd, hshamt, hfunct⟩ := rFields_toNat w
  obtain ⟨-, -, -, himm⟩ := iFields_toNat w
  rw [himm, hrd, hshamt, hfunct, Nat.or_assoc, shiftLeft_or (n := 6) _ (by omega),
    shiftLeft_or (n := 11) _ (by omega)]
  omega

theorem jFields_address_eq_or (w : Word) :
    (jFields w).address.toNat = (iFields w).rs.toNat <<< 21 ||| (iFields w).rt.toNat <<< 16 |||
      (iFields w).immediate.toNat := by
  obtain ⟨-, hrs, hrt, himm⟩ := iFields_toNat w
  obtain ⟨-, haddr⟩ := jFields_toNat w
  rw [haddr, hrs, hrt, himm, Nat.or_assoc, shiftLeft_or (n := 16) _ (by omega),
    shiftLeft_or (n := 21) _ (by omega)]
  omega

/-- Settles O42: opcode, rs and rt are read by the same shift and mask in every layout. -/
theorem layoutsShareTheWord : Obligations.LayoutsShareTheWord := by
  intro w s
  exact ⟨rFields w, iFields w, jFields w, exec_result.2 rfl, exec_result.2 rfl, exec_result.2 rfl,
    rfl, rfl, rfl, rfl, iFields_immediate_eq_or w, jFields_address_eq_or w⟩

section Encoder

variable {α β : Type} {check : Except Error α} {render : α → β} {c : Except Error β} {g : β → Output}

/-- An encoder whose check passes answers the rendering. -/
theorem resultOf_encoder_ok {F : α} (hc : c = check.map render) (h : check = .ok F) :
    resultOf (c.map g) = .ok (g (render F)) := by
  rw [hc, h, except_map_ok, except_map_ok, resultOf_ok]

/-- An encoder whose check fails answers the check's error. -/
theorem resultOf_encoder_error {e : Error} (hc : c = check.map render) (h : check = .error e) :
    resultOf (c.map g) = .err e := by
  rw [hc, h, except_map_error, except_map_error, resultOf_error]

end Encoder

theorem rCheck_of_valid {f : RInts} (h : f.valid = true) : rCheck f = .ok (rOfInts f) := by
  rw [rCheck_eq, (rValid_iff f).1 h]

theorem iCheck_of_valid {f : IInts} (h : f.valid = true) : iCheck f = .ok (iOfInts f) := by
  rw [iCheck_eq, (iValid_iff f).1 h]

theorem jCheck_of_valid {f : JInts} (h : f.valid = true) : jCheck f = .ok (jOfInts f) := by
  rw [jCheck_eq, (jValid_iff f).1 h]

/-! The binary string (rule R64). -/

/-- Characters of a binary text that are read as `x` are `x` rendered. -/
theorem slice_eq_binRender {t : Text} {a b x : Nat} (ht : t.all isBin = true) (hb : b ≤ t.length)
    (hx : binValue (slice t a b) = x) : slice t a b = binRender x (b - a) := by
  rw [← hx, ← slice_length hb, binRender_binValue _ (slice_all ht a b)]

/-- A tuple's integers as its fields' numbers (rule R70). -/
theorem rOfInts_toNat {f : RInts} (h : f.valid = true) :
    (rOfInts f).opcode.toNat = f.opcode.toNat ∧ (rOfInts f).rs.toNat = f.rs.toNat ∧
    (rOfInts f).rt.toNat = f.rt.toNat ∧ (rOfInts f).rd.toNat = f.rd.toNat ∧
    (rOfInts f).shamt.toNat = f.shamt.toNat ∧ (rOfInts f).funct.toNat = f.funct.toNat := by
  simp only [RInts.valid, Bool.and_eq_true, and_assoc] at h
  obtain ⟨hop, hrs, hrt, hrd, hshamt, hfunct⟩ := h
  exact ⟨ofInt_toNat_eq hop, ofInt_toNat_eq hrs, ofInt_toNat_eq hrt, ofInt_toNat_eq hrd,
    ofInt_toNat_eq hshamt, ofInt_toNat_eq hfunct⟩

theorem iOfInts_toNat {f : IInts} (h : f.valid = true) :
    (iOfInts f).opcode.toNat = f.opcode.toNat ∧ (iOfInts f).rs.toNat = f.rs.toNat ∧
    (iOfInts f).rt.toNat = f.rt.toNat ∧ (iOfInts f).immediate.toNat = f.immediate.toNat := by
  simp only [IInts.valid, Bool.and_eq_true, and_assoc] at h
  obtain ⟨hop, hrs, hrt, himm⟩ := h
  exact ⟨ofInt_toNat_eq hop, ofInt_toNat_eq hrs, ofInt_toNat_eq hrt, ofInt_toNat_eq himm⟩

theorem jOfInts_toNat {f : JInts} (h : f.valid = true) :
    (jOfInts f).opcode.toNat = f.opcode.toNat ∧ (jOfInts f).address.toNat = f.address.toNat := by
  simp only [JInts.valid, Bool.and_eq_true] at h
  obtain ⟨hop, haddr⟩ := h
  exact ⟨ofInt_toNat_eq hop, ofInt_toNat_eq haddr⟩

theorem rBinText_getElem? (F : RFields) {k : Nat} (h : k < 32) :
    (rBinText F)[k]? = some (if (rWord F).toNat.testBit (31 - k) then '1' else '0') := by
  rw [rBinText_eq, binRender_getElem? h]

theorem iBinText_getElem? (F : IFields) {k : Nat} (h : k < 32) :
    (iBinText F)[k]? = some (if (iWord F).toNat.testBit (31 - k) then '1' else '0') := by
  rw [iBinText_eq, binRender_getElem? h]

theorem jBinText_getElem? (F : JFields) {k : Nat} (h : k < 32) :
    (jBinText F)[k]? = some (if (jWord F).toNat.testBit (31 - k) then '1' else '0') := by
  rw [jBinText_eq, binRender_getElem? h]

/-- Settles O43: the text built field by field is the text of the packed word, and what is read at a
field's offsets is the field. -/
theorem binaryStringIsTheWordBitByBit : Obligations.BinaryStringIsTheWordBitByBit := by
  refine ⟨fun f s h => ?_, fun f s h => ?_, fun f s h => ?_⟩
  · obtain ⟨nop, nrs, nrt, nrd, nshamt, nfunct⟩ := rOfInts_toNat h
    obtain ⟨hop, hrs, hrt, hrd, hshamt, hfunct⟩ := rBinText_cut (rOfInts f)
    have hlen := rBinText_length (rOfInts f)
    have hbin := rBinText_all (rOfInts f)
    exact ⟨rBinText (rOfInts f), rWord (rOfInts f),
      exec_result.2 (resultOf_encoder_ok (rEncodeBin_eq f) (rCheck_of_valid h)),
      exec_result.2 (resultOf_encoder_ok (rPack_eq f) (rCheck_of_valid h)),
      hlen, hbin, fun k => rBinText_getElem? _,
      slice_eq_binRender hbin (by omega) (hop.trans nop),
      slice_eq_binRender hbin (by omega) (hrs.trans nrs),
      slice_eq_binRender hbin (by omega) (hrt.trans nrt),
      slice_eq_binRender hbin (by omega) (hrd.trans nrd),
      slice_eq_binRender hbin (by omega) (hshamt.trans nshamt),
      slice_eq_binRender hbin (by omega) (hfunct.trans nfunct)⟩
  · obtain ⟨nop, nrs, nrt, nimm⟩ := iOfInts_toNat h
    obtain ⟨hop, hrs, hrt, himm⟩ := iBinText_cut (iOfInts f)
    have hlen := iBinText_length (iOfInts f)
    have hbin := iBinText_all (iOfInts f)
    exact ⟨iBinText (iOfInts f), iWord (iOfInts f),
      exec_result.2 (resultOf_encoder_ok (iEncodeBin_eq f) (iCheck_of_valid h)),
      exec_result.2 (resultOf_encoder_ok (iPack_eq f) (iCheck_of_valid h)),
      hlen, hbin, fun k => iBinText_getElem? _,
      slice_eq_binRender hbin (by omega) (hop.trans nop),
      slice_eq_binRender hbin (by omega) (hrs.trans nrs),
      slice_eq_binRender hbin (by omega) (hrt.trans nrt),
      slice_eq_binRender hbin (by omega) (himm.trans nimm)⟩
  · obtain ⟨nop, naddr⟩ := jOfInts_toNat h
    obtain ⟨hop, haddr⟩ := jBinText_cut (jOfInts f)
    have hlen := jBinText_length (jOfInts f)
    have hbin := jBinText_all (jOfInts f)
    exact ⟨jBinText (jOfInts f), jWord (jOfInts f),
      exec_result.2 (resultOf_encoder_ok (jEncodeBin_eq f) (jCheck_of_valid h)),
      exec_result.2 (resultOf_encoder_ok (jPack_eq f) (jCheck_of_valid h)),
      hlen, hbin, fun k => jBinText_getElem? _,
      slice_eq_binRender hbin (by omega) (hop.trans nop),
      slice_eq_binRender hbin (by omega) (haddr.trans naddr)⟩

/-! The I immediate (rule R70). -/

/-- With the fields before it in range, a negative immediate is the error (rules R101, R150). -/
theorem iCheck_of_immediate_neg {f : IInts} (hop : inRange f.opcode 6 = true)
    (hrs : inRange f.rs 5 = true) (hrt : inRange f.rt 5 = true) (hneg : f.immediate < 0) :
    iCheck f = .error (.fieldOutOfRange .immediate f.immediate 16) := by
  have himm : inRange f.immediate 16 = false := by
    rw [← Bool.not_eq_true, inRange_iff]
    omega
  have hfirst : firstOutOfRange (iNamed f) = some (.immediate, f.immediate) := by
    simp [firstOutOfRange, iNamed, Config.width, hop, hrs, hrt, himm]
  rw [iCheck_eq, hfirst]
  rfl

/-- Settles O56: unpacking reads 16 bits as a number, and all four encoders share one check. -/
theorem immediateIsUnsigned : Obligations.ImmediateIsUnsigned := by
  constructor
  · intro w s
    obtain ⟨-, -, -, himm⟩ := iFields_toNat w
    exact ⟨iFields w, himm, exec_result.2 rfl⟩
  · intro f s hop hrs hrt hneg
    have hcheck := iCheck_of_immediate_neg hop hrs hrt hneg
    exact ⟨exec_result.2 (resultOf_encoder_error (iPack_eq f) hcheck),
      exec_result.2 (resultOf_encoder_error (iEncodeBin_eq f) hcheck),
      exec_result.2 (resultOf_encoder_error (iEncodePackedHex_eq f) hcheck),
      exec_result.2 (resultOf_encoder_error (iEncodeFieldHex_eq f) hcheck)⟩

end Sys2Proof.Machine

/-! SUPPORT. The four word serializers (rules R109 to R112): what each port answers, and how a text is
determined by the word it is read as (rule R115). -/

namespace Sys2Proof.Machine

/-- A port that answers words answers `w` exactly when `w` is what it computes. -/
theorem resultOf_map_word_eq_ok {c : Except Error Word} {w : Word} :
    resultOf (c.map .word) = .ok (.word w) ↔ c = .ok w := by
  simp [resultOf_eq_ok, map_eq_ok]

/-! Reading binary text. -/

theorem binToWord_ok {t : Text} (hlen : t.length = 32) (hbin : t.all isBin = true) :
    binToWord t = .ok (BitVec.ofNat 32 (binValue t)) :=
  binChecks (n := Config.binLen) (A := .bin) hlen hbin _

theorem binToWord_badLength {t : Text} (hlen : t.length ≠ 32) :
    binToWord t = .error (.malformedInput (.badLength (.exactly 32) t.length)) :=
  lengthFails (n := Config.binLen) hlen _

theorem binToWord_badChar {t : Text} {c : Char} {j : Nat} (hlen : t.length = 32)
    (hc : t[j]? = some c) (hbad : isBin c = false) (hfirst : (t.take j).all isBin = true) :
    binToWord t = .error (.malformedInput (.badChar j c)) :=
  charFails (n := Config.binLen) (A := .bin) hlen hc hbad hfirst _

theorem binToWord_isOk (t : Text) : (binToWord t).isOk = binTextValid t := binChecked_isOk t _

/-- A text that `bin_to_word` reads is 32 binary digits, and the word is their value (rule R110). -/
theorem of_binToWord_eq_ok {t : Text} {w : Word} (h : binToWord t = .ok w) :
    binTextValid t = true ∧ w = BitVec.ofNat 32 (binValue t) := by
  have hvalid : binTextValid t = true := by rw [← binToWord_isOk, h, ok_isOk]
  obtain ⟨hlen, hbin⟩ : t.length = 32 ∧ t.all isBin = true := by simpa [binTextValid] using hvalid
  rw [binToWord_ok hlen hbin] at h
  exact ⟨hvalid, (Except.ok.inj h).symm⟩

theorem binToWord_binRender (w : Word) : binToWord (binRender w.toNat 32) = .ok w := by
  rw [binToWord_ok (binRender_length _ _) (binRender_all _ _), ofNat_binValue_binRender]

/-- The bits of a binary text's value are its characters (rule R103). -/
theorem testBit_binValue {t : Text} (hbin : t.all isBin = true) {k : Nat} (hk : k < t.length) :
    (binValue t).testBit (t.length - 1 - k) = decide (t[k]? = some '1') := by
  have hchar := binRender_getElem? (v := binValue t) hk
  rw [binRender_binValue t hbin] at hchar
  rw [hchar]
  cases (binValue t).testBit (t.length - 1 - k) <;> decide

/-! Hex text with its lower-case letters made upper case (decision D3). -/

/-- An upper-cased hex digit is in `HEX_UPPER` and has the same value. -/
theorem toUpper_of_isHex {c : Char} (h : isHex c = true) :
    isHexUpper c.toUpper = true ∧ hexDigitValue c.toUpper = hexDigitValue c := by
  have table : ∀ n < 103, isHex (Char.ofNat n) = true →
      isHexUpper (Char.ofNat n).toUpper = true ∧
        hexDigitValue (Char.ofNat n).toUpper = hexDigitValue (Char.ofNat n) := by decide
  have hn : c.toNat < 103 := by
    rw [isHex_iff] at h
    omega
  simpa using table c.toNat hn (by simpa using h)

theorem all_isHexUpper_map_toUpper {t : Text} (h : t.all isHex = true) :
    (t.map Char.toUpper).all isHexUpper = true := by
  rw [List.all_eq_true] at h
  rw [List.all_map, List.all_eq_true]
  exact fun c hc => (toUpper_of_isHex (h c hc)).1

theorem hexValue_map_toUpper {t : Text} (h : t.all isHex = true) :
    hexValue (t.map Char.toUpper) = hexValue t := by
  induction t with
  | nil => rfl
  | cons c t ih =>
    simp only [List.all_cons, Bool.and_eq_true] at h
    obtain ⟨hc, ht⟩ := h
    rw [List.map_cons, hexValue, hexValue, ih ht, (toUpper_of_isHex hc).2, List.length_map]

/-! Leading zeros (rule R105). -/

/-- Digits above a number's own are '0'. -/
theorem hexRender_add_of_lt {v n : Nat} (h : v < 16 ^ n) (m : Nat) :
    hexRender v (m + n) = List.replicate m '0' ++ hexRender v n := by
  induction m with
  | zero => simp
  | succ m ih =>
    have hzero : v / 16 ^ (m + n) = 0 :=
      Nat.div_eq_of_lt (h.trans_le (Nat.pow_le_pow_right (by decide) (Nat.le_add_left n m)))
    rw [Nat.succ_add, hexRender_succ, hzero, ih, List.replicate_succ]
    rfl

/-- The last `m` digits are the rendering to `m` digits. -/
theorem drop_hexRender (v m n : Nat) : (hexRender v (m + n)).drop n = hexRender v m := by
  induction n with
  | zero => rfl
  | succ n ih => rw [← Nat.add_assoc, hexRender_succ, List.drop_succ_cons, ih]

/-- Padding a rendering with '0' on the left and keeping `m` digits renders to `m` digits. -/
theorem drop_replicate_append_hexRender {v n : Nat} (h : v < 16 ^ n) (m : Nat) :
    (List.replicate m '0' ++ hexRender v n).drop n = hexRender v m := by
  rw [← hexRender_add_of_lt h, drop_hexRender]

/-- What stands before the last `m` digits of a number below 16^m is '0'. -/
theorem eq_zero_of_mem_take_hexRender {v m n : Nat} (h : v < 16 ^ m) {c : Char}
    (hc : c ∈ (hexRender v n).take (n - m)) : c = '0' := by
  rcases Nat.le_total n m with hnm | hmn
  · simp [Nat.sub_eq_zero_of_le hnm] at hc
  · obtain ⟨k, rfl⟩ := Nat.exists_eq_add_of_le' hmn
    rw [hexRender_add_of_lt h, Nat.add_sub_cancel, List.take_left' List.length_replicate] at hc
    exact List.eq_of_mem_replicate hc

/-! Reading hex text. -/

theorem packedHexValid_iff {t : Text} :
    packedHexValid t = true ↔ t ≠ [] ∧ t.all isHex = true ∧ hexValue t < 2 ^ 32 := by
  simp [packedHexValid, and_assoc]

/-- A text that `hex_to_word` reads is hex digits, and the word is their value (rule R112). -/
theorem of_hexToWord_eq_ok {t : Text} {w : Word} (h : hexToWord t = .ok w) :
    t.all isHex = true ∧ w.toNat = hexValue t := by
  have hvalid : packedHexValid t = true := by rw [← hexToWord_isOk, h, ok_isOk]
  obtain ⟨hne, hhex, hlt⟩ := packedHexValid_iff.1 hvalid
  rw [hexToWord_ok hne hhex hlt] at h
  rw [← Except.ok.inj h, BitVec.toNat_ofNat, Nat.mod_eq_of_lt hlt]
  exact ⟨hhex, rfl⟩

theorem hexToWord_hexRender (w : Word) : hexToWord (hexRender w.toNat 8) = .ok w := by
  obtain ⟨hne, hhex, hlt⟩ := packedHexValid_iff.1 (packedHexValid_hexRender w)
  rw [hexToWord_ok hne hhex hlt, ofNat_hexValue_hexRender]

/-- A hex text in upper case is its word rendered to the text's length (rule R115). -/
theorem map_toUpper_eq_hexRender {t : Text} (h : t.all isHex = true) :
    t.map Char.toUpper = hexRender (hexValue t) t.length := by
  have hrender := hexRender_hexValue (all_isHexUpper_map_toUpper h)
  rw [hexValue_map_toUpper h, List.length_map] at hrender
  exact hrender.symm

/-- Settles O41: a legal text is the rendering of its value, a hex text once it is in upper case, and
renderings of one number differ in leading zeros alone. -/
theorem wordSerializersRoundTrip : Obligations.WordSerializersRoundTrip := by
  intro s
  simp only [exec_result]
  refine ⟨fun w => ⟨⟨binRender w.toNat 32, rfl, ?_⟩, ⟨hexRender w.toNat 8, rfl, ?_⟩⟩,
    fun t w h => ?_, fun t w h => ?_⟩
  · exact resultOf_map_word_eq_ok.2 (binToWord_binRender w)
  · exact resultOf_map_word_eq_ok.2 (hexToWord_hexRender w)
  · obtain ⟨hvalid, rfl⟩ := of_binToWord_eq_ok (resultOf_map_word_eq_ok.1 h)
    exact congrArg (Result.ok ∘ Output.text) (binRender_ofNat_binValue hvalid)
  · obtain ⟨hhex, hnum⟩ := of_hexToWord_eq_ok (resultOf_map_word_eq_ok.1 h)
    refine ⟨_, (map_toUpper_eq_hexRender hhex).symm, fun c hc => ?_, ?_⟩
    · rw [hexRender_length, ← hnum] at hc
      exact eq_zero_of_mem_take_hexRender (m := 8) w.isLt hc
    · rw [hexRender_length, drop_replicate_append_hexRender (hexValue_lt hhex), ← hnum]
      rfl

/-- Settles O34: the text is the word's rendering, whose characters are its bits. -/
theorem wordToBinResult : Obligations.WordToBinResult :=
  fun w _ => ⟨binRender w.toNat 32, binRender_length _ _, fun _ hk => binRender_getElem? hk,
    exec_result.2 rfl⟩

/-- Settles O35, check by check: the length, the alphabet, then the value. -/
theorem binToWordResult : Obligations.BinToWordResult := by
  intro t s
  simp only [exec_result, computed]
  refine ⟨fun hlen => ?_, fun k c hlen hc hbad hfirst => ?_, fun hlen hbin => ?_⟩
  · rw [binToWord_badLength hlen, except_map_error, resultOf_error]
  · rw [binToWord_badChar hlen hc hbad hfirst, except_map_error, resultOf_error]
  · have hnum : (BitVec.ofNat 32 (binValue t)).toNat = binValue t :=
      Nat.mod_eq_of_lt (hlen ▸ binValue_lt t)
    refine ⟨BitVec.ofNat 32 (binValue t), hnum, fun k hk => ?_, ?_⟩
    · have hbit := testBit_binValue hbin (k := k) (by omega)
      rw [hlen] at hbit
      rw [hnum]
      exact hbit
    · exact resultOf_map_word_eq_ok.2 (binToWord_ok hlen hbin)

/-- The digits of `HEX_UPPER` in the order of their values (rules R14, R105). -/
theorem some_hexDigit {d : Nat} (h : d < 16) : some (hexDigit d) = "0123456789ABCDEF".toList[d]? := by
  revert d
  decide

/-- Settles O36: the text is the word's rendering, and 16^(7 - k) is 2^(28 - 4 k). -/
theorem wordToHexResult : Obligations.WordToHexResult := by
  refine fun w s => ⟨hexRender w.toNat 8, hexRender_length _ _, fun k hk => ?_, exec_result.2 rfl⟩
  have hpow : 16 ^ (8 - 1 - k) = 2 ^ (28 - 4 * k) := by
    rw [show 28 - 4 * k = 4 * (8 - 1 - k) by omega, pow_mul]
    rfl
  rw [hexRender_getElem? hk, hpow, some_hexDigit (Nat.mod_lt _ (by decide))]

/-- Settles O37, check by check: the empty text, the alphabet, then the value. -/
theorem hexToWordResult : Obligations.HexToWordResult := by
  intro t s
  simp only [exec_result, computed]
  refine ⟨?_, fun k c hc hbad hfirst => ?_, fun hhex hlarge => ?_, fun hne hhex hlt =>
    ⟨BitVec.ofNat 32 (hexValue t), Nat.mod_eq_of_lt hlt, ?_⟩⟩
  · rintro rfl
    rfl
  · rw [hexToWord_badChar hc hbad hfirst, except_map_error, resultOf_error]
  · rw [hexToWord_overflow hhex hlarge, except_map_error, resultOf_error]
  · exact resultOf_map_word_eq_ok.2 (hexToWord_ok hne hhex hlt)

end Sys2Proof.Machine

/-! SUPPORT. Every result that a call can give is legal: the checks' errors carry the payloads that made
them fail (rules R101, R107, R108, R112, R114, R201, R202), and the outputs are those of
`computed_mayAnswer`. -/

namespace Sys2Proof.Machine

/-! The payload of each error. -/

/-- The reported field is out of the range of its width (rule R101). -/
theorem errorLegal_of_firstOutOfRange {fs : List (FieldName × Int)} {name : FieldName} {v : Int}
    (h : firstOutOfRange fs = some (name, v)) :
    errorLegal (.fieldOutOfRange name v (Config.width name)) = true := by
  have hout := List.find?_some h
  simpa [errorLegal] using hout

/-- `BIN` is part of both alphabets (rule R14). -/
theorem inAlphabet_of_isBin {c : Char} (h : isBin c = true) (A : Alphabet) : inAlphabet A c = true := by
  cases A with
  | bin => exact h
  | hex => rcases (isBin_iff c).1 h with rfl | rfl <;> decide

/-- The reported character, in whichever alphabet it fails, is neither '0' nor '1' (rule R108). -/
theorem errorLegal_badChar {A : Alphabet} {c : Char} (h : inAlphabet A c = false) (k : Nat) :
    errorLegal (.malformedInput (.badChar k c)) = true := by
  have hc : isBin c = false := by
    rw [← Bool.not_eq_true]
    intro hbin
    simp [inAlphabet_of_isBin hbin A] at h
  simp [errorLegal, hc]

section Raises

variable {α β : Type}

/-- Every error of the computation is legal. -/
def RaisesLegal (c : Except Error α) : Prop := ∀ e, c = .error e → errorLegal e = true

theorem raisesLegal_ok (a : α) : RaisesLegal (.ok a : Except Error α) := fun _ h => nomatch h

theorem raisesLegal_error {e : Error} (h : errorLegal e = true) :
    RaisesLegal (.error e : Except Error α) := by
  rintro _ ⟨⟩
  exact h

theorem RaisesLegal.bind {c : Except Error α} {f : α → Except Error β} (hc : RaisesLegal c)
    (hf : ∀ a, RaisesLegal (f a)) : RaisesLegal (c >>= f) := by
  cases c with
  | ok a => exact hf a
  | error e => exact raisesLegal_error (hc e rfl)

theorem RaisesLegal.map {c : Except Error α} {g : α → β} (hc : RaisesLegal c) :
    RaisesLegal (c.map g) :=
  hc.bind fun a => raisesLegal_ok (g a)

/-- An encoder, a check followed by a rendering, raises what its check does. -/
theorem RaisesLegal.encoder {check : Except Error α} {render : α → β} {c : Except Error β}
    {g : β → Output} (h : RaisesLegal check) (hc : c = check.map render) : RaisesLegal (c.map g) :=
  hc ▸ h.map.map

theorem rCheck_raisesLegal (f : RInts) : RaisesLegal (rCheck f) := by
  rw [rCheck_eq]
  split
  · next hfirst => exact raisesLegal_error (errorLegal_of_firstOutOfRange hfirst)
  · exact raisesLegal_ok _

theorem iCheck_raisesLegal (f : IInts) : RaisesLegal (iCheck f) := by
  rw [iCheck_eq]
  split
  · next hfirst => exact raisesLegal_error (errorLegal_of_firstOutOfRange hfirst)
  · exact raisesLegal_ok _

theorem jCheck_raisesLegal (f : JInts) : RaisesLegal (jCheck f) := by
  rw [jCheck_eq]
  split
  · next hfirst => exact raisesLegal_error (errorLegal_of_firstOutOfRange hfirst)
  · exact raisesLegal_ok _

theorem checkAlphabet_raisesLegal (t : Text) (A : Alphabet) : RaisesLegal (checkAlphabet t A) := by
  rcases all_or_first_bad (inAlphabet A) t with h | ⟨j, c, hc, hbad, hfirst⟩
  · rw [checkAlphabet_ok h]
    exact raisesLegal_ok _
  · rw [checkAlphabet_error hc hbad hfirst]
    exact raisesLegal_error (errorLegal_badChar hbad j)

/-- A decoder that checks a text's length and alphabet first raises legal errors when the rest of it
does on the texts that pass. -/
theorem checked_raisesLegal {n : Nat} {A : Alphabet} {t : Text} {k : Except Error α}
    (hn : (n == 32 || n == 12 || n == 10 || n == 9) = true)
    (hk : t.length = n → t.all (inAlphabet A) = true → RaisesLegal k) :
    RaisesLegal (do checkLength t n; checkAlphabet t A; k) := by
  by_cases hlen : t.length = n
  · rcases all_or_first_bad (inAlphabet A) t with hall | ⟨j, c, hc, hbad, hfirst⟩
    · rw [binChecks hlen hall]
      exact hk hlen hall
    · rw [checkLength_eq, if_pos hlen, checkAlphabet_error hc hbad hfirst]
      exact raisesLegal_error (errorLegal_badChar hbad j)
  · rw [lengthFails hlen]
    exact raisesLegal_error (Bool.and_eq_true_iff.2 ⟨hn, bne_iff_ne.2 hlen⟩)

/-- A decoder of binary text raises the errors of its two checks (rules R110, R133, R153, R173). -/
theorem binChecked_raisesLegal (t : Text) (a : α) :
    RaisesLegal (do checkLength t Config.binLen; checkAlphabet t .bin; return a : Except Error α) :=
  checked_raisesLegal rfl fun _ _ => raisesLegal_ok a

/-- A group of its field's digit count is reported when it is too wide for the field and yet within
those digits (rule R114). -/
theorem fhField_raisesLegal {t : Text} (ht : t.all isHex = true) {a b n : Nat} {name : FieldName}
    (hb : b ≤ t.length) (hn : n = Config.width name) (hdigits : b - a = fhDigits n) :
    RaisesLegal (fhField (slice t a b) name n) := by
  have hlt : hexValue (slice t a b) < 16 ^ fhDigits n := by
    rw [← hdigits, ← slice_length hb]
    exact hexValue_lt (slice_all ht a b)
  unfold fhField
  split
  · next hwide => exact raisesLegal_error (by simp [errorLegal, ← hn, hwide, hlt])
  · exact raisesLegal_ok _

theorem rDecodeFieldHex_raisesLegal (t : Text) : RaisesLegal (rDecodeFieldHex t) :=
  checked_raisesLegal (n := 12) (A := .hex) rfl fun hlen hhex =>
    (fhField_raisesLegal hhex (by omega) rfl rfl).bind fun _ =>
    (fhField_raisesLegal hhex (by omega) rfl rfl).bind fun _ =>
    (fhField_raisesLegal hhex (by omega) rfl rfl).bind fun _ =>
    (fhField_raisesLegal hhex (by omega) rfl rfl).bind fun _ =>
    (fhField_raisesLegal hhex (by omega) rfl rfl).bind fun _ =>
    (fhField_raisesLegal hhex (by omega) rfl rfl).bind fun _ => raisesLegal_ok _

theorem iDecodeFieldHex_raisesLegal (t : Text) : RaisesLegal (iDecodeFieldHex t) :=
  checked_raisesLegal (n := 10) (A := .hex) rfl fun hlen hhex =>
    (fhField_raisesLegal hhex (by omega) rfl rfl).bind fun _ =>
    (fhField_raisesLegal hhex (by omega) rfl rfl).bind fun _ =>
    (fhField_raisesLegal hhex (by omega) rfl rfl).bind fun _ =>
    (fhField_raisesLegal hhex (by omega) rfl rfl).bind fun _ => raisesLegal_ok _

theorem jDecodeFieldHex_raisesLegal (t : Text) : RaisesLegal (jDecodeFieldHex t) :=
  checked_raisesLegal (n := 9) (A := .hex) rfl fun hlen hhex =>
    (fhField_raisesLegal hhex (by omega) rfl rfl).bind fun _ =>
    (fhField_raisesLegal hhex (by omega) rfl rfl).bind fun _ => raisesLegal_ok _

theorem hexToWord_raisesLegal (t : Text) : RaisesLegal (hexToWord t) := by
  rw [hexToWord_eq]
  split
  · exact raisesLegal_error rfl
  · refine (checkAlphabet_raisesLegal t .hex).bind fun _ => ?_
    split
    · next hlarge => exact raisesLegal_error (decide_eq_true hlarge)
    · exact raisesLegal_ok _

end Raises

theorem computed_raisesLegal (i : Instr) : RaisesLegal (computed i) := by
  cases i with
  | rPack f => exact (rCheck_raisesLegal f).encoder (rPack_eq f)
  | rUnpack w => exact raisesLegal_ok _
  | rEncodeBin f => exact (rCheck_raisesLegal f).encoder (rEncodeBin_eq f)
  | rDecodeBin t => exact (binChecked_raisesLegal t _).map
  | rEncodePackedHex f => exact (rCheck_raisesLegal f).encoder (rEncodePackedHex_eq f)
  | rDecodePackedHex t => exact ((hexToWord_raisesLegal t).bind fun _ => raisesLegal_ok _).map
  | rEncodeFieldHex f => exact (rCheck_raisesLegal f).encoder (rEncodeFieldHex_eq f)
  | rDecodeFieldHex t => exact (rDecodeFieldHex_raisesLegal t).map
  | iPack f => exact (iCheck_raisesLegal f).encoder (iPack_eq f)
  | iUnpack w => exact raisesLegal_ok _
  | iEncodeBin f => exact (iCheck_raisesLegal f).encoder (iEncodeBin_eq f)
  | iDecodeBin t => exact (binChecked_raisesLegal t _).map
  | iEncodePackedHex f => exact (iCheck_raisesLegal f).encoder (iEncodePackedHex_eq f)
  | iDecodePackedHex t => exact ((hexToWord_raisesLegal t).bind fun _ => raisesLegal_ok _).map
  | iEncodeFieldHex f => exact (iCheck_raisesLegal f).encoder (iEncodeFieldHex_eq f)
  | iDecodeFieldHex t => exact (iDecodeFieldHex_raisesLegal t).map
  | jPack f => exact (jCheck_raisesLegal f).encoder (jPack_eq f)
  | jUnpack w => exact raisesLegal_ok _
  | jEncodeBin f => exact (jCheck_raisesLegal f).encoder (jEncodeBin_eq f)
  | jDecodeBin t => exact (binChecked_raisesLegal t _).map
  | jEncodePackedHex f => exact (jCheck_raisesLegal f).encoder (jEncodePackedHex_eq f)
  | jDecodePackedHex t => exact ((hexToWord_raisesLegal t).bind fun _ => raisesLegal_ok _).map
  | jEncodeFieldHex f => exact (jCheck_raisesLegal f).encoder (jEncodeFieldHex_eq f)
  | jDecodeFieldHex t => exact (jDecodeFieldHex_raisesLegal t).map
  | wordToBin w => exact raisesLegal_ok _
  | binToWord t => exact (binChecked_raisesLegal t _).map
  | wordToHex w => exact raisesLegal_ok _
  | hexToWord t => exact (hexToWord_raisesLegal t).map

/-! Legal results stand through a step. -/

/-- An output that a port may return is legal. -/
theorem outputLegal_of_mayReturn {p : Port} {v : Output} (h : mayReturn p v = true) :
    outputLegal v = true := by
  cases v with
  | word w => rfl
  | rFields F => rfl
  | iFields F => rfl
  | jFields F => rfl
  | text t =>
    cases p
    case rEncodeBin | iEncodeBin | jEncodeBin | wordToBin =>
      have htext : isBinText t = true := h
      simp [outputLegal, htext]
    case rEncodePackedHex | iEncodePackedHex | jEncodePackedHex | wordToHex =>
      have htext : isHexText 8 t = true := h
      simp [outputLegal, htext]
    case rEncodeFieldHex =>
      have htext : isHexText 12 t = true := h
      simp [outputLegal, htext]
    case iEncodeFieldHex =>
      have htext : isHexText 10 t = true := h
      simp [outputLegal, htext]
    case jEncodeFieldHex =>
      have htext : isHexText 9 t = true := h
      simp [outputLegal, htext]
    all_goals cases h

theorem computed_resultLegal (i : Instr) : resultLegal (resultOf (computed i)) = true := by
  cases hc : computed i with
  | ok v =>
    have hport := computed_mayAnswer i
    rw [hc] at hport
    exact outputLegal_of_mayReturn (v := v) hport
  | error e => exact computed_raisesLegal i e hc

/-- Settles O52: a step adds at most one result, and what a call computes is legal. -/
theorem stepKeepsResultsLegal : Obligations.StepKeepsResultsLegal := by
  intro s s' hlegal hstep
  rcases step_cases s with ⟨-, hidle⟩ | ⟨c, rest, i, -, -, hexec⟩ | ⟨c, rest, why, -, -, hfault⟩
  · rw [hidle] at hstep
    cases hstep
    exact hlegal
  · rw [hexec] at hstep
    obtain rfl := exec_next hstep
    simpa [State.legal, computed_resultLegal i] using hlegal
  · rw [hfault] at hstep
    cases hstep

end Sys2Proof.Machine

/-! SUPPORT. The eight ports of the R layout (rules R130 to R139): what each answers once its checks are
decided, and that each decoder undoes its encoder. -/

namespace Sys2Proof.Machine

section Answer

variable {α : Type} {c : Except Error α} {g : α → Output}

/-- A port answers the value it computes. -/
theorem resultOf_map_ok {a : α} (h : c = .ok a) : resultOf (c.map g) = .ok (g a) := by
  rw [h, except_map_ok, resultOf_ok]

/-- A port answers the error it raises. -/
theorem resultOf_map_error {e : Error} (h : c = .error e) : resultOf (c.map g) = .err e := by
  rw [h, except_map_error, resultOf_error]

end Answer

/-! The encoders: one check, then the word of the tuple's integers. -/

/-- The first R field out of range is the error (rule R101). -/
theorem rCheck_of_firstOutOfRange {f : RInts} {name : FieldName} {v : Int}
    (h : firstOutOfRange (rNamed f) = some (name, v)) :
    rCheck f = .error (.fieldOutOfRange name v (Config.width name)) := by
  rw [rCheck_eq, h]

/-- The word of a valid tuple is the OR of its shifted integers (rule R130). -/
theorem rWord_rOfInts_toNat_or {f : RInts} (h : f.valid = true) :
    (rWord (rOfInts f)).toNat = f.opcode.toNat <<< 26 ||| f.rs.toNat <<< 21 ||| f.rt.toNat <<< 16 |||
      f.rd.toNat <<< 11 ||| f.shamt.toNat <<< 6 ||| f.funct.toNat := by
  obtain ⟨hop, hrs, hrt, hrd, hshamt, hfunct⟩ := rOfInts_toNat h
  rw [rWord_toNat_or, hop, hrs, hrt, hrd, hshamt, hfunct]

theorem rEncodePackedHex_of_valid {f : RInts} (h : f.valid = true) :
    rEncodePackedHex f = .ok (hexRender (rWord (rOfInts f)).toNat 8) := by
  rw [rEncodePackedHex_eq, rCheck_of_valid h, except_map_ok]

/-- The binary text of a valid tuple, written from its integers (rule R132). -/
theorem rBinText_rOfInts {f : RInts} (h : f.valid = true) :
    rBinText (rOfInts f) = binRender f.opcode.toNat 6 ++ binRender f.rs.toNat 5 ++
      binRender f.rt.toNat 5 ++ binRender f.rd.toNat 5 ++ binRender f.shamt.toNat 5 ++
      binRender f.funct.toNat 6 := by
  obtain ⟨hop, hrs, hrt, hrd, hshamt, hfunct⟩ := rOfInts_toNat h
  rw [rBinText, hop, hrs, hrt, hrd, hshamt, hfunct]

/-- The field-hex text of a valid tuple, written from its integers (rules R113, R136). -/
theorem rFieldHexText_rOfInts {f : RInts} (h : f.valid = true) :
    rFieldHexText (rOfInts f) = hexRender f.opcode.toNat 2 ++ hexRender f.rs.toNat 2 ++
      hexRender f.rt.toNat 2 ++ hexRender f.rd.toNat 2 ++ hexRender f.shamt.toNat 2 ++
      hexRender f.funct.toNat 2 := by
  obtain ⟨hop, hrs, hrt, hrd, hshamt, hfunct⟩ := rOfInts_toNat h
  rw [rFieldHexText, hop, hrs, hrt, hrd, hshamt, hfunct]
  rfl

/-! The decoders, by the outcome of their checks. -/

/-- The R reading of a word by shift and mask (rule R131). -/
theorem rFields_toNat_and (w : Word) :
    (rFields w).opcode.toNat = (w.toNat >>> 26) &&& 0x3F ∧
    (rFields w).rs.toNat = (w.toNat >>> 21) &&& 0x1F ∧
    (rFields w).rt.toNat = (w.toNat >>> 16) &&& 0x1F ∧
    (rFields w).rd.toNat = (w.toNat >>> 11) &&& 0x1F ∧
    (rFields w).shamt.toNat = (w.toNat >>> 6) &&& 0x1F ∧
    (rFields w).funct.toNat = w.toNat &&& 0x3F := by
  have m63 (x : Nat) : x &&& 63 = x % 64 := Nat.and_two_pow_sub_one_eq_mod x 6
  have m31 (x : Nat) : x &&& 31 = x % 32 := Nat.and_two_pow_sub_one_eq_mod x 5
  simp only [m63, m31, Nat.shiftRight_eq_div_pow]
  exact rFields_toNat w

theorem rDecodeBin_badLength {t : Text} (hlen : t.length ≠ 32) :
    rDecodeBin t = .error (.malformedInput (.badLength (.exactly 32) t.length)) :=
  lengthFails (n := Config.binLen) hlen _

theorem rDecodeBin_badChar {t : Text} {c : Char} {j : Nat} (hlen : t.length = 32)
    (hc : t[j]? = some c) (hbad : isBin c = false) (hfirst : (t.take j).all isBin = true) :
    rDecodeBin t = .error (.malformedInput (.badChar j c)) :=
  charFails (n := Config.binLen) (A := .bin) hlen hc hbad hfirst _

/-- The slices of a binary text are the fields of the word it spells (rule R133). -/
theorem rFields_ofNat_binValue_toNat {t : Text} (hlen : t.length = 32) (hbin : t.all isBin = true) :
    (rFields (BitVec.ofNat 32 (binValue t))).opcode.toNat = binValue (slice t 0 6) ∧
    (rFields (BitVec.ofNat 32 (binValue t))).rs.toNat = binValue (slice t 6 11) ∧
    (rFields (BitVec.ofNat 32 (binValue t))).rt.toNat = binValue (slice t 11 16) ∧
    (rFields (BitVec.ofNat 32 (binValue t))).rd.toNat = binValue (slice t 16 21) ∧
    (rFields (BitVec.ofNat 32 (binValue t))).shamt.toNat = binValue (slice t 21 26) ∧
    (rFields (BitVec.ofNat 32 (binValue t))).funct.toNat = binValue (slice t 26 32) := by
  have htext : rBinText (rFields (BitVec.ofNat 32 (binValue t))) = t := by
    rw [rBinText_eq, rWord_rFields, binRender_ofNat_binValue (by simp [binTextValid, hlen, hbin])]
  obtain ⟨hop, hrs, hrt, hrd, hshamt, hfunct⟩ := rBinText_cut (rFields (BitVec.ofNat 32 (binValue t)))
  rw [htext] at hop hrs hrt hrd hshamt hfunct
  exact ⟨hop.symm, hrs.symm, hrt.symm, hrd.symm, hshamt.symm, hfunct.symm⟩

theorem hexToWord_nil : hexToWord [] = .error (.malformedInput (.badLength .atLeastOne 0)) := rfl

/-- Reading packed hex is reading the word and unpacking it; the errors pass through (rule R135). -/
theorem rDecodePackedHex_eq (t : Text) : rDecodePackedHex t = (hexToWord t).map rFields := by
  unfold rDecodePackedHex
  cases hexToWord t <;> rfl

theorem rDecodePackedHex_ok {t : Text} {w : Word} (h : hexToWord t = .ok w) :
    rDecodePackedHex t = .ok (rFields w) := by
  rw [rDecodePackedHex_eq, h, except_map_ok]

theorem rDecodePackedHex_error {t : Text} {e : Error} (h : hexToWord t = .error e) :
    rDecodePackedHex t = .error e := by
  rw [rDecodePackedHex_eq, h, except_map_error]

theorem rDecodeFieldHex_badLength {t : Text} (hlen : t.length ≠ 12) :
    rDecodeFieldHex t = .error (.malformedInput (.badLength (.exactly 12) t.length)) :=
  lengthFails (n := Config.fhLenR) hlen _

theorem rDecodeFieldHex_badChar {t : Text} {c : Char} {j : Nat} (hlen : t.length = 12)
    (hc : t[j]? = some c) (hbad : isHex c = false) (hfirst : (t.take j).all isHex = true) :
    rDecodeFieldHex t = .error (.malformedInput (.badChar j c)) :=
  charFails (n := Config.fhLenR) (A := .hex) hlen hc hbad hfirst _

theorem rDecodeFieldHex_tooWide {t : Text} {name : FieldName} {v : Nat} (hlen : t.length = 12)
    (hhex : t.all isHex = true) (hwide : firstTooWide (rGroups t) = some (name, v)) :
    rDecodeFieldHex t = .error (.malformedInput (.fieldTooWide name v (Config.width name))) := by
  rw [rDecodeFieldHex_eq hlen hhex, hwide]

theorem rDecodeFieldHex_ok {t : Text} (hlen : t.length = 12) (hhex : t.all isHex = true)
    (hfit : firstTooWide (rGroups t) = none) : rDecodeFieldHex t = .ok (rOfFieldHex t) := by
  rw [rDecodeFieldHex_eq hlen hhex, hfit]

/-- The groups that fit their fields are the fields' numbers (rules R114, R137). -/
theorem rOfFieldHex_toNat {t : Text} (hfit : firstTooWide (rGroups t) = none) :
    (rOfFieldHex t).opcode.toNat = hexValue (slice t 0 2) ∧
    (rOfFieldHex t).rs.toNat = hexValue (slice t 2 4) ∧
    (rOfFieldHex t).rt.toNat = hexValue (slice t 4 6) ∧
    (rOfFieldHex t).rd.toNat = hexValue (slice t 6 8) ∧
    (rOfFieldHex t).shamt.toNat = hexValue (slice t 8 10) ∧
    (rOfFieldHex t).funct.toNat = hexValue (slice t 10 12) := by
  simp only [firstTooWide_eq_none, rGroups, Config.width, List.forall_mem_cons] at hfit
  obtain ⟨hop, hrs, hrt, hrd, hshamt, hfunct, -⟩ := hfit
  exact ⟨Nat.mod_eq_of_lt hop, Nat.mod_eq_of_lt hrs, Nat.mod_eq_of_lt hrt, Nat.mod_eq_of_lt hrd,
    Nat.mod_eq_of_lt hshamt, Nat.mod_eq_of_lt hfunct⟩

/-- The valid field-hex texts are those that pass the decoder's three checks (rule R75). -/
theorem rFieldHexValid_iff {t : Text} : rFieldHexValid t = true ↔
    t.length = 12 ∧ t.all isHex = true ∧ firstTooWide (rGroups t) = none := by
  simp [rFieldHexValid, groupFits, firstTooWide_eq_none, rGroups, Config.width, and_assoc]

/-! Each decoder reads what its encoder writes (rule R138). -/

theorem rDecodeBin_rBinText (F : RFields) : rDecodeBin (rBinText F) = .ok F := by
  rw [rDecodeBin_ok (rBinText_length F) (rBinText_all F), rBinText_eq, ofNat_binValue_binRender,
    rFields_rWord]

theorem rDecodePackedHex_hexRender (F : RFields) :
    rDecodePackedHex (hexRender (rWord F).toNat 8) = .ok F := by
  rw [rDecodePackedHex_ok (hexToWord_hexRender _), rFields_rWord]

theorem rDecodeFieldHex_rFieldHexText (F : RFields) : rDecodeFieldHex (rFieldHexText F) = .ok F := by
  obtain ⟨hlen, hhex, hfit⟩ := rFieldHexValid_iff.1 (rFieldHexValid_rFieldHexText F)
  rw [rDecodeFieldHex_ok hlen hhex hfit, rOfFieldHex_text]

/-- Settles O38: each encoder writes a rendering of the tuple's fields or of their word, and the matching
decoder reads it back; the word of a word's fields is the word. -/
theorem rRoundTrips : Obligations.RRoundTrips := by
  constructor
  · intro f s h
    have hcheck := rCheck_of_valid h
    simp only [exec_result]
    refine ⟨rOfInts f, rToInts_rOfInts h, ⟨rBinText (rOfInts f), ?_, ?_⟩,
      ⟨hexRender (rWord (rOfInts f)).toNat 8, ?_, ?_⟩, ⟨rFieldHexText (rOfInts f), ?_, ?_⟩,
      ⟨rWord (rOfInts f), ?_, ?_⟩⟩
    · exact resultOf_encoder_ok (rEncodeBin_eq f) hcheck
    · exact resultOf_map_ok (rDecodeBin_rBinText _)
    · exact resultOf_map_ok (rEncodePackedHex_of_valid h)
    · exact resultOf_map_ok (rDecodePackedHex_hexRender _)
    · exact resultOf_encoder_ok (rEncodeFieldHex_eq f) hcheck
    · exact resultOf_map_ok (rDecodeFieldHex_rFieldHexText _)
    · exact resultOf_encoder_ok (rPack_eq f) hcheck
    · exact congrArg (Result.ok ∘ Output.rFields) (rFields_rWord _)
  · intro w s
    have hpack := resultOf_encoder_ok (g := .word) (rPack_eq _) (rCheck_rToInts (rFields w))
    rw [rWord_rFields] at hpack
    exact ⟨rFields w, exec_result.2 rfl, exec_result.2 hpack⟩

/-- Settles O10, by whether a field is out of range. -/
theorem rPackResult : Obligations.RPackResult := by
  refine fun f s => ⟨fun name v hbad => ?_, fun hgood => ?_⟩
  · exact exec_result.2 (resultOf_encoder_error (rPack_eq f) (rCheck_of_firstOutOfRange hbad))
  · have hvalid := (rValid_iff f).2 hgood
    exact ⟨rWord (rOfInts f), rWord_rOfInts_toNat_or hvalid,
      exec_result.2 (resultOf_encoder_ok (rPack_eq f) (rCheck_of_valid hvalid))⟩

/-- Settles O12, by whether a field is out of range. -/
theorem rEncodeBinResult : Obligations.REncodeBinResult := by
  refine fun f s => ⟨fun name v hbad => ?_, fun hgood => ?_⟩
  · exact exec_result.2 (resultOf_encoder_error (rEncodeBin_eq f) (rCheck_of_firstOutOfRange hbad))
  · have hvalid := (rValid_iff f).2 hgood
    exact ⟨rBinText (rOfInts f), rWord (rOfInts f), rBinText_rOfInts hvalid,
      rWord_rOfInts_toNat_or hvalid, rBinText_eq _, rBinText_length _,
      exec_result.2 (resultOf_encoder_ok (rEncodeBin_eq f) (rCheck_of_valid hvalid))⟩

/-- Settles O13, check by check: the length, the alphabet, then the slices. -/
theorem rDecodeBinResult : Obligations.RDecodeBinResult := by
  refine fun t s => ⟨fun hlen => ?_, fun k c hlen hc hbad hfirst => ?_, fun hlen hbin => ?_⟩
  · exact exec_result.2 (resultOf_map_error (rDecodeBin_badLength hlen))
  · exact exec_result.2 (resultOf_map_error (rDecodeBin_badChar hlen hc hbad hfirst))
  · have hnum : (BitVec.ofNat 32 (binValue t)).toNat = binValue t :=
      Nat.mod_eq_of_lt (hlen ▸ binValue_lt t)
    obtain ⟨hop, hrs, hrt, hrd, hshamt, hfunct⟩ := rFields_ofNat_binValue_toNat hlen hbin
    obtain ⟨mop, mrs, mrt, mrd, mshamt, mfunct⟩ := rFields_toNat_and (BitVec.ofNat 32 (binValue t))
    exact ⟨rFields (BitVec.ofNat 32 (binValue t)), BitVec.ofNat 32 (binValue t),
      hop, hrs, hrt, hrd, hshamt, hfunct, hnum, mop, mrs, mrt, mrd, mshamt, mfunct,
      exec_result.2 (resultOf_map_ok (rDecodeBin_ok hlen hbin))⟩

/-- Settles O14, by whether a field is out of range. -/
theorem rEncodePackedHexResult : Obligations.REncodePackedHexResult := by
  refine fun f s => ⟨fun name v hbad => ?_, fun hgood => ?_⟩
  · exact exec_result.2
      (resultOf_encoder_error (rEncodePackedHex_eq f) (rCheck_of_firstOutOfRange hbad))
  · have hvalid := (rValid_iff f).2 hgood
    exact ⟨rWord (rOfInts f), rWord_rOfInts_toNat_or hvalid,
      exec_result.2 (resultOf_map_ok (rEncodePackedHex_of_valid hvalid))⟩

/-- Settles O15: the errors are those of `hex_to_word`, and its word is unpacked. -/
theorem rDecodePackedHexResult : Obligations.RDecodePackedHexResult := by
  refine fun t s => ⟨?_, fun k c hc hbad hfirst => ?_, fun hhex hlarge => ?_,
    fun hne hhex hlt => ?_⟩
  · rintro rfl
    exact exec_result.2 (resultOf_map_error (g := .rFields) (rDecodePackedHex_error hexToWord_nil))
  · exact exec_result.2
      (resultOf_map_error (rDecodePackedHex_error (hexToWord_badChar hc hbad hfirst)))
  · exact exec_result.2
      (resultOf_map_error (rDecodePackedHex_error (hexToWord_overflow hhex hlarge)))
  · have hnum : (BitVec.ofNat 32 (hexValue t)).toNat = hexValue t := Nat.mod_eq_of_lt hlt
    obtain ⟨hop, hrs, hrt, hrd, hshamt, hfunct⟩ := rFields_toNat_and (BitVec.ofNat 32 (hexValue t))
    rw [hnum] at hop hrs hrt hrd hshamt hfunct
    exact ⟨rFields (BitVec.ofNat 32 (hexValue t)), hop, hrs, hrt, hrd, hshamt, hfunct,
      exec_result.2 (resultOf_map_ok (rDecodePackedHex_ok (hexToWord_ok hne hhex hlt)))⟩

/-- Settles O16, by whether a field is out of range. -/
theorem rEncodeFieldHexResult : Obligations.REncodeFieldHexResult := by
  refine fun f s => ⟨fun name v hbad => ?_, fun hgood => ?_⟩
  · exact exec_result.2
      (resultOf_encoder_error (rEncodeFieldHex_eq f) (rCheck_of_firstOutOfRange hbad))
  · have hvalid := (rValid_iff f).2 hgood
    exact ⟨rFieldHexText (rOfInts f), rFieldHexText_rOfInts hvalid, rFieldHexText_length _,
      rFieldHexText_upper _,
      exec_result.2 (resultOf_encoder_ok (rEncodeFieldHex_eq f) (rCheck_of_valid hvalid))⟩

/-- Settles O17, check by check: the length, the alphabet, then each group's width. -/
theorem rDecodeFieldHexResult : Obligations.RDecodeFieldHexResult := by
  refine fun t s => ⟨fun hlen => ?_, fun k c hlen hc hbad hfirst => ?_,
    fun name v hlen hhex hwide => ?_, fun hlen hhex hfit => ?_⟩
  · exact exec_result.2 (resultOf_map_error (rDecodeFieldHex_badLength hlen))
  · exact exec_result.2 (resultOf_map_error (rDecodeFieldHex_badChar hlen hc hbad hfirst))
  · exact exec_result.2 (resultOf_map_error (rDecodeFieldHex_tooWide hlen hhex hwide))
  · obtain ⟨hop, hrs, hrt, hrd, hshamt, hfunct⟩ := rOfFieldHex_toNat hfit
    exact ⟨rOfFieldHex t, hop, hrs, hrt, hrd, hshamt, hfunct,
      exec_result.2 (resultOf_map_ok (rDecodeFieldHex_ok hlen hhex hfit))⟩

/-- Settles O11: the fields are the word's shifted and masked bits. -/
theorem rUnpackResult : Obligations.RUnpackResult := by
  intro w s
  obtain ⟨hop, hrs, hrt, hrd, hshamt, hfunct⟩ := rFields_toNat_and w
  exact ⟨rFields w, hop, hrs, hrt, hrd, hshamt, hfunct, exec_result.2 rfl⟩

/-- Settles O54: no state stands in what a call computes, and the eight calls are evaluated. -/
theorem crossConventionExamples : Obligations.CrossConventionExamples := by
  intro s
  simp only [exec_result]
  decide

end Sys2Proof.Machine

/-! SUPPORT. The eight ports of the I layout (rules R150 to R158): what each answers once its checks are
decided, and that each decoder undoes its encoder. -/

namespace Sys2Proof.Machine

/-! The encoders: one check shared by the four, then a rendering of the tuple's integers. -/

section IEncoder

variable {β : Type} {f : IInts} {render : IFields → β} {c : Except Error β} {g : β → Output}

/-- Each I encoder answers the first field out of range (rule R101). -/
theorem resultOf_iEncoder_firstOutOfRange {name : FieldName} {v : Int}
    (hc : c = (iCheck f).map render) (hbad : firstOutOfRange (iNamed f) = some (name, v)) :
    resultOf (c.map g) = .err (.fieldOutOfRange name v (Config.width name)) :=
  resultOf_encoder_error hc (by rw [iCheck_eq, hbad])

/-- Each I encoder answers its rendering of a valid tuple. -/
theorem resultOf_iEncoder_of_valid (hc : c = (iCheck f).map render) (h : f.valid = true) :
    resultOf (c.map g) = .ok (g (render (iOfInts f))) :=
  resultOf_encoder_ok hc (iCheck_of_valid h)

end IEncoder

/-- The word of a valid tuple is the OR of its shifted integers (rule R150). -/
theorem iWord_iOfInts_toNat_or {f : IInts} (h : f.valid = true) :
    (iWord (iOfInts f)).toNat = f.opcode.toNat <<< 26 ||| f.rs.toNat <<< 21 ||| f.rt.toNat <<< 16 |||
      f.immediate.toNat := by
  obtain ⟨hop, hrs, hrt, himm⟩ := iOfInts_toNat h
  rw [iWord_toNat_or, hop, hrs, hrt, himm]

/-- The binary text of a valid tuple, written from its integers (rule R152). -/
theorem iBinText_iOfInts {f : IInts} (h : f.valid = true) :
    iBinText (iOfInts f) = binRender f.opcode.toNat 6 ++ binRender f.rs.toNat 5 ++
      binRender f.rt.toNat 5 ++ binRender f.immediate.toNat 16 := by
  obtain ⟨hop, hrs, hrt, himm⟩ := iOfInts_toNat h
  rw [iBinText, hop, hrs, hrt, himm]

/-- The field-hex text of a valid tuple, written from its integers (rules R113, R156). -/
theorem iFieldHexText_iOfInts {f : IInts} (h : f.valid = true) :
    iFieldHexText (iOfInts f) = hexRender f.opcode.toNat 2 ++ hexRender f.rs.toNat 2 ++
      hexRender f.rt.toNat 2 ++ hexRender f.immediate.toNat 4 := by
  obtain ⟨hop, hrs, hrt, himm⟩ := iOfInts_toNat h
  rw [iFieldHexText, hop, hrs, hrt, himm]
  rfl

/-! The decoders, by the outcome of their checks. -/

/-- The I reading of a word by shift and mask (rule R151). -/
theorem iFields_toNat_and (w : Word) :
    (iFields w).opcode.toNat = (w.toNat >>> 26) &&& 0x3F ∧
    (iFields w).rs.toNat = (w.toNat >>> 21) &&& 0x1F ∧
    (iFields w).rt.toNat = (w.toNat >>> 16) &&& 0x1F ∧
    (iFields w).immediate.toNat = w.toNat &&& 0xFFFF := by
  obtain ⟨hop, hrs, hrt, -⟩ := rFields_toNat_and w
  obtain ⟨-, -, -, himm⟩ := iFields_toNat w
  exact ⟨hop, hrs, hrt, himm.trans (Nat.and_two_pow_sub_one_eq_mod w.toNat 16).symm⟩

theorem iDecodeBin_badLength {t : Text} (hlen : t.length ≠ 32) :
    iDecodeBin t = .error (.malformedInput (.badLength (.exactly 32) t.length)) :=
  lengthFails (n := Config.binLen) hlen _

theorem iDecodeBin_badChar {t : Text} {c : Char} {j : Nat} (hlen : t.length = 32)
    (hc : t[j]? = some c) (hbad : isBin c = false) (hfirst : (t.take j).all isBin = true) :
    iDecodeBin t = .error (.malformedInput (.badChar j c)) :=
  charFails (n := Config.binLen) (A := .bin) hlen hc hbad hfirst _

/-- The slices of a binary text are the I fields of the word it spells (rule R153). -/
theorem iFields_ofNat_binValue_toNat {t : Text} (hlen : t.length = 32) (hbin : t.all isBin = true) :
    (iFields (BitVec.ofNat 32 (binValue t))).opcode.toNat = binValue (slice t 0 6) ∧
    (iFields (BitVec.ofNat 32 (binValue t))).rs.toNat = binValue (slice t 6 11) ∧
    (iFields (BitVec.ofNat 32 (binValue t))).rt.toNat = binValue (slice t 11 16) ∧
    (iFields (BitVec.ofNat 32 (binValue t))).immediate.toNat = binValue (slice t 16 32) := by
  have htext : iBinText (iFields (BitVec.ofNat 32 (binValue t))) = t := by
    rw [iBinText_eq, iWord_iFields, binRender_ofNat_binValue (by simp [binTextValid, hlen, hbin])]
  obtain ⟨hop, hrs, hrt, himm⟩ := iBinText_cut (iFields (BitVec.ofNat 32 (binValue t)))
  rw [htext] at hop hrs hrt himm
  exact ⟨hop.symm, hrs.symm, hrt.symm, himm.symm⟩

/-- Reading packed hex is reading the word and unpacking it; the errors pass through (rule R155). So it
has an encoder's shape, `hex_to_word` for the check and the unpacking for the rendering, and the lemmas
on an encoder's answer hold of it. -/
theorem iDecodePackedHex_eq (t : Text) : iDecodePackedHex t = (hexToWord t).map iFields := by
  unfold iDecodePackedHex
  cases hexToWord t <;> rfl

theorem iDecodeFieldHex_badLength {t : Text} (hlen : t.length ≠ 10) :
    iDecodeFieldHex t = .error (.malformedInput (.badLength (.exactly 10) t.length)) :=
  lengthFails (n := Config.fhLenI) hlen _

theorem iDecodeFieldHex_badChar {t : Text} {c : Char} {j : Nat} (hlen : t.length = 10)
    (hc : t[j]? = some c) (hbad : isHex c = false) (hfirst : (t.take j).all isHex = true) :
    iDecodeFieldHex t = .error (.malformedInput (.badChar j c)) :=
  charFails (n := Config.fhLenI) (A := .hex) hlen hc hbad hfirst _

theorem iDecodeFieldHex_tooWide {t : Text} {name : FieldName} {v : Nat} (hlen : t.length = 10)
    (hhex : t.all isHex = true) (hwide : firstTooWide (iGroups t) = some (name, v)) :
    iDecodeFieldHex t = .error (.malformedInput (.fieldTooWide name v (Config.width name))) := by
  rw [iDecodeFieldHex_eq hlen hhex, hwide]

theorem iDecodeFieldHex_ok {t : Text} (hlen : t.length = 10) (hhex : t.all isHex = true)
    (hfit : firstTooWide (iGroups t) = none) : iDecodeFieldHex t = .ok (iOfFieldHex t) := by
  rw [iDecodeFieldHex_eq hlen hhex, hfit]

/-- The groups that fit their fields are the fields' numbers (rules R114, R157). -/
theorem iOfFieldHex_toNat {t : Text} (hfit : firstTooWide (iGroups t) = none) :
    (iOfFieldHex t).opcode.toNat = hexValue (slice t 0 2) ∧
    (iOfFieldHex t).rs.toNat = hexValue (slice t 2 4) ∧
    (iOfFieldHex t).rt.toNat = hexValue (slice t 4 6) ∧
    (iOfFieldHex t).immediate.toNat = hexValue (slice t 6 10) := by
  simp only [firstTooWide_eq_none, iGroups, Config.width, List.forall_mem_cons] at hfit
  obtain ⟨hop, hrs, hrt, himm, -⟩ := hfit
  exact ⟨Nat.mod_eq_of_lt hop, Nat.mod_eq_of_lt hrs, Nat.mod_eq_of_lt hrt, Nat.mod_eq_of_lt himm⟩

/-- The valid field-hex texts are those that pass the decoder's three checks (rule R75). -/
theorem iFieldHexValid_iff {t : Text} : iFieldHexValid t = true ↔
    t.length = 10 ∧ t.all isHex = true ∧ firstTooWide (iGroups t) = none := by
  simp [iFieldHexValid, groupFits, firstTooWide_eq_none, iGroups, Config.width, and_assoc]

/-! Each decoder reads what its encoder writes (rule R158). -/

theorem iDecodeBin_iBinText (F : IFields) : iDecodeBin (iBinText F) = .ok F := by
  rw [iDecodeBin_ok (iBinText_length F) (iBinText_all F), iBinText_eq, ofNat_binValue_binRender,
    iFields_iWord]

theorem iDecodePackedHex_hexRender (F : IFields) :
    iDecodePackedHex (hexRender (iWord F).toNat 8) = .ok F := by
  rw [iDecodePackedHex_eq, hexToWord_hexRender, except_map_ok, iFields_iWord]

theorem iDecodeFieldHex_iFieldHexText (F : IFields) : iDecodeFieldHex (iFieldHexText F) = .ok F := by
  obtain ⟨hlen, hhex, hfit⟩ := iFieldHexValid_iff.1 (iFieldHexValid_iFieldHexText F)
  rw [iDecodeFieldHex_ok hlen hhex hfit, iOfFieldHex_text]

/-- Settles O39: each encoder writes a rendering of the tuple's fields or of their word, and the matching
decoder reads it back; the word of a word's fields is the word. -/
theorem iRoundTrips : Obligations.IRoundTrips := by
  constructor
  · intro f s h
    simp only [exec_result]
    refine ⟨iOfInts f, iToInts_iOfInts h,
      ⟨_, resultOf_iEncoder_of_valid (iEncodeBin_eq f) h, ?_⟩,
      ⟨_, resultOf_iEncoder_of_valid (iEncodePackedHex_eq f) h, ?_⟩,
      ⟨_, resultOf_iEncoder_of_valid (iEncodeFieldHex_eq f) h, ?_⟩,
      ⟨_, resultOf_iEncoder_of_valid (iPack_eq f) h, ?_⟩⟩
    · exact resultOf_map_ok (iDecodeBin_iBinText _)
    · exact resultOf_map_ok (iDecodePackedHex_hexRender _)
    · exact resultOf_map_ok (iDecodeFieldHex_iFieldHexText _)
    · exact congrArg (Result.ok ∘ Output.iFields) (iFields_iWord _)
  · intro w s
    have hpack := resultOf_encoder_ok (g := .word) (iPack_eq _) (iCheck_iToInts (iFields w))
    rw [iWord_iFields] at hpack
    exact ⟨iFields w, exec_result.2 rfl, exec_result.2 hpack⟩

/-- Settles O18, by whether a field is out of range. -/
theorem iPackResult : Obligations.IPackResult := by
  refine fun f s => ⟨fun name v hbad => ?_, fun hgood => ?_⟩
  · exact exec_result.2 (resultOf_iEncoder_firstOutOfRange (iPack_eq f) hbad)
  · have hvalid := (iValid_iff f).2 hgood
    exact ⟨iWord (iOfInts f), iWord_iOfInts_toNat_or hvalid,
      exec_result.2 (resultOf_iEncoder_of_valid (iPack_eq f) hvalid)⟩

/-- Settles O20, by whether a field is out of range. -/
theorem iEncodeBinResult : Obligations.IEncodeBinResult := by
  refine fun f s => ⟨fun name v hbad => ?_, fun hgood => ?_⟩
  · exact exec_result.2 (resultOf_iEncoder_firstOutOfRange (iEncodeBin_eq f) hbad)
  · have hvalid := (iValid_iff f).2 hgood
    exact ⟨iBinText (iOfInts f), iWord (iOfInts f), iBinText_iOfInts hvalid,
      iWord_iOfInts_toNat_or hvalid, iBinText_eq _, iBinText_length _,
      exec_result.2 (resultOf_iEncoder_of_valid (iEncodeBin_eq f) hvalid)⟩

/-- Settles O21, check by check: the length, the alphabet, then the slices. -/
theorem iDecodeBinResult : Obligations.IDecodeBinResult := by
  refine fun t s => ⟨fun hlen => ?_, fun k c hlen hc hbad hfirst => ?_, fun hlen hbin => ?_⟩
  · exact exec_result.2 (resultOf_map_error (iDecodeBin_badLength hlen))
  · exact exec_result.2 (resultOf_map_error (iDecodeBin_badChar hlen hc hbad hfirst))
  · have hnum : (BitVec.ofNat 32 (binValue t)).toNat = binValue t :=
      Nat.mod_eq_of_lt (hlen ▸ binValue_lt t)
    obtain ⟨hop, hrs, hrt, himm⟩ := iFields_ofNat_binValue_toNat hlen hbin
    obtain ⟨mop, mrs, mrt, mimm⟩ := iFields_toNat_and (BitVec.ofNat 32 (binValue t))
    exact ⟨iFields (BitVec.ofNat 32 (binValue t)), BitVec.ofNat 32 (binValue t),
      hop, hrs, hrt, himm, hnum, mop, mrs, mrt, mimm,
      exec_result.2 (resultOf_map_ok (iDecodeBin_ok hlen hbin))⟩

/-- Settles O22, by whether a field is out of range. -/
theorem iEncodePackedHexResult : Obligations.IEncodePackedHexResult := by
  refine fun f s => ⟨fun name v hbad => ?_, fun hgood => ?_⟩
  · exact exec_result.2 (resultOf_iEncoder_firstOutOfRange (iEncodePackedHex_eq f) hbad)
  · have hvalid := (iValid_iff f).2 hgood
    exact ⟨iWord (iOfInts f), iWord_iOfInts_toNat_or hvalid,
      exec_result.2 (resultOf_iEncoder_of_valid (iEncodePackedHex_eq f) hvalid)⟩

/-- Settles O23: the errors are those of `hex_to_word`, and its word is unpacked. -/
theorem iDecodePackedHexResult : Obligations.IDecodePackedHexResult := by
  refine fun t s => ⟨?_, fun k c hc hbad hfirst => ?_, fun hhex hlarge => ?_,
    fun hne hhex hlt => ?_⟩
  · rintro rfl
    exact exec_result.2
      (resultOf_encoder_error (g := .iFields) (iDecodePackedHex_eq []) hexToWord_nil)
  · exact exec_result.2
      (resultOf_encoder_error (iDecodePackedHex_eq t) (hexToWord_badChar hc hbad hfirst))
  · exact exec_result.2
      (resultOf_encoder_error (iDecodePackedHex_eq t) (hexToWord_overflow hhex hlarge))
  · have hnum : (BitVec.ofNat 32 (hexValue t)).toNat = hexValue t := Nat.mod_eq_of_lt hlt
    obtain ⟨hop, hrs, hrt, himm⟩ := iFields_toNat_and (BitVec.ofNat 32 (hexValue t))
    rw [hnum] at hop hrs hrt himm
    exact ⟨iFields (BitVec.ofNat 32 (hexValue t)), hop, hrs, hrt, himm,
      exec_result.2 (resultOf_encoder_ok (iDecodePackedHex_eq t) (hexToWord_ok hne hhex hlt))⟩

/-- Settles O24, by whether a field is out of range. -/
theorem iEncodeFieldHexResult : Obligations.IEncodeFieldHexResult := by
  refine fun f s => ⟨fun name v hbad => ?_, fun hgood => ?_⟩
  · exact exec_result.2 (resultOf_iEncoder_firstOutOfRange (iEncodeFieldHex_eq f) hbad)
  · have hvalid := (iValid_iff f).2 hgood
    exact ⟨iFieldHexText (iOfInts f), iFieldHexText_iOfInts hvalid, iFieldHexText_length _,
      iFieldHexText_upper _,
      exec_result.2 (resultOf_iEncoder_of_valid (iEncodeFieldHex_eq f) hvalid)⟩

/-- Settles O25, check by check: the length, the alphabet, then each group's width. -/
theorem iDecodeFieldHexResult : Obligations.IDecodeFieldHexResult := by
  refine fun t s => ⟨fun hlen => ?_, fun k c hlen hc hbad hfirst => ?_,
    fun name v hlen hhex hwide => ?_, fun hlen hhex hfit => ?_⟩
  · exact exec_result.2 (resultOf_map_error (iDecodeFieldHex_badLength hlen))
  · exact exec_result.2 (resultOf_map_error (iDecodeFieldHex_badChar hlen hc hbad hfirst))
  · exact exec_result.2 (resultOf_map_error (iDecodeFieldHex_tooWide hlen hhex hwide))
  · obtain ⟨hop, hrs, hrt, himm⟩ := iOfFieldHex_toNat hfit
    exact ⟨iOfFieldHex t, hop, hrs, hrt, himm,
      exec_result.2 (resultOf_map_ok (iDecodeFieldHex_ok hlen hhex hfit))⟩

/-- Settles O19: the fields are the word's shifted and masked bits. -/
theorem iUnpackResult : Obligations.IUnpackResult := by
  intro w s
  obtain ⟨hop, hrs, hrt, himm⟩ := iFields_toNat_and w
  exact ⟨iFields w, hop, hrs, hrt, himm, exec_result.2 rfl⟩

end Sys2Proof.Machine

/-! SUPPORT. The eight ports of the J layout (rules R170 to R178): what each answers once its checks are
decided, that each decoder undoes its encoder, and what reading a field-hex text as packed hex gives. -/

namespace Sys2Proof.Machine

/-! The encoders: one check shared by the four, then a rendering of the tuple's integers. -/

section JEncoder

variable {β : Type} {f : JInts} {render : JFields → β} {c : Except Error β} {g : β → Output}

/-- Each J encoder answers the first field out of range (rule R101). -/
theorem resultOf_jEncoder_firstOutOfRange {name : FieldName} {v : Int}
    (hc : c = (jCheck f).map render) (hbad : firstOutOfRange (jNamed f) = some (name, v)) :
    resultOf (c.map g) = .err (.fieldOutOfRange name v (Config.width name)) :=
  resultOf_encoder_error hc (by rw [jCheck_eq, hbad])

/-- Each J encoder answers its rendering of a valid tuple. -/
theorem resultOf_jEncoder_of_valid (hc : c = (jCheck f).map render) (h : f.valid = true) :
    resultOf (c.map g) = .ok (g (render (jOfInts f))) :=
  resultOf_encoder_ok hc (jCheck_of_valid h)

end JEncoder

/-- The word of a valid tuple is the OR of its shifted integers (rule R170). -/
theorem jWord_jOfInts_toNat_or {f : JInts} (h : f.valid = true) :
    (jWord (jOfInts f)).toNat = f.opcode.toNat <<< 26 ||| f.address.toNat := by
  obtain ⟨hop, haddr⟩ := jOfInts_toNat h
  rw [jWord_toNat_or, hop, haddr]

/-- The binary text of a valid tuple, written from its integers (rule R172). -/
theorem jBinText_jOfInts {f : JInts} (h : f.valid = true) :
    jBinText (jOfInts f) = binRender f.opcode.toNat 6 ++ binRender f.address.toNat 26 := by
  obtain ⟨hop, haddr⟩ := jOfInts_toNat h
  rw [jBinText, hop, haddr]

/-- The field-hex text of a valid tuple, written from its integers (rules R113, R176). -/
theorem jFieldHexText_jOfInts {f : JInts} (h : f.valid = true) :
    jFieldHexText (jOfInts f) = hexRender f.opcode.toNat 2 ++ hexRender f.address.toNat 7 := by
  obtain ⟨hop, haddr⟩ := jOfInts_toNat h
  rw [jFieldHexText, hop, haddr]
  rfl

/-! The decoders, once their checks are decided. -/

/-- The J reading of a word by shift and mask (rule R171). -/
theorem jFields_toNat_and (w : Word) :
    (jFields w).opcode.toNat = (w.toNat >>> 26) &&& 0x3F ∧
    (jFields w).address.toNat = w.toNat &&& 0x3FFFFFF := by
  obtain ⟨hop, -⟩ := rFields_toNat_and w
  obtain ⟨-, haddr⟩ := jFields_toNat w
  exact ⟨hop, haddr.trans (Nat.and_two_pow_sub_one_eq_mod w.toNat 26).symm⟩

/-- The slices of a binary text are the J fields of the word it spells (rule R173). -/
theorem jFields_ofNat_binValue_toNat {t : Text} (hlen : t.length = 32) (hbin : t.all isBin = true) :
    (jFields (BitVec.ofNat 32 (binValue t))).opcode.toNat = binValue (slice t 0 6) ∧
    (jFields (BitVec.ofNat 32 (binValue t))).address.toNat = binValue (slice t 6 32) := by
  have htext : jBinText (jFields (BitVec.ofNat 32 (binValue t))) = t := by
    rw [jBinText_eq, jWord_jFields, binRender_ofNat_binValue (by simp [binTextValid, hlen, hbin])]
  obtain ⟨hop, haddr⟩ := jBinText_cut (jFields (BitVec.ofNat 32 (binValue t)))
  rw [htext] at hop haddr
  exact ⟨hop.symm, haddr.symm⟩

/-- Reading packed hex is reading the word and unpacking it; the errors pass through (rule R175). So it
has an encoder's shape, and the lemmas on an encoder's answer hold of it. -/
theorem jDecodePackedHex_eq (t : Text) : jDecodePackedHex t = (hexToWord t).map jFields := by
  unfold jDecodePackedHex
  cases hexToWord t <;> rfl

/-- A legal hex text is read as the word that is its value (rule R112). -/
theorem exists_hexToWord_eq_ok {t : Text} (hne : t ≠ []) (hhex : t.all isHex = true)
    (hlt : hexValue t < 2 ^ 32) : ∃ w : Word, w.toNat = hexValue t ∧ hexToWord t = .ok w :=
  ⟨BitVec.ofNat 32 (hexValue t), Nat.mod_eq_of_lt hlt, hexToWord_ok hne hhex hlt⟩

theorem jDecodeFieldHex_tooWide {t : Text} {name : FieldName} {v : Nat} (hlen : t.length = 9)
    (hhex : t.all isHex = true) (hwide : firstTooWide (jGroups t) = some (name, v)) :
    jDecodeFieldHex t = .error (.malformedInput (.fieldTooWide name v (Config.width name))) := by
  rw [jDecodeFieldHex_eq hlen hhex, hwide]

theorem jDecodeFieldHex_ok {t : Text} (hlen : t.length = 9) (hhex : t.all isHex = true)
    (hfit : firstTooWide (jGroups t) = none) : jDecodeFieldHex t = .ok (jOfFieldHex t) := by
  rw [jDecodeFieldHex_eq hlen hhex, hfit]

/-- The groups that fit their fields are the fields' numbers (rules R114, R177). -/
theorem jOfFieldHex_toNat {t : Text} (hfit : firstTooWide (jGroups t) = none) :
    (jOfFieldHex t).opcode.toNat = hexValue (slice t 0 2) ∧
    (jOfFieldHex t).address.toNat = hexValue (slice t 2 9) := by
  simp only [firstTooWide_eq_none, jGroups, Config.width, List.forall_mem_cons] at hfit
  obtain ⟨hop, haddr, -⟩ := hfit
  exact ⟨Nat.mod_eq_of_lt hop, Nat.mod_eq_of_lt haddr⟩

/-- The valid field-hex texts are those that pass the decoder's three checks (rule R75). -/
theorem jFieldHexValid_iff {t : Text} : jFieldHexValid t = true ↔
    t.length = 9 ∧ t.all isHex = true ∧ firstTooWide (jGroups t) = none := by
  simp [jFieldHexValid, groupFits, firstTooWide_eq_none, jGroups, Config.width, and_assoc]

/-! Each decoder reads what its encoder writes (rule R178). -/

theorem jDecodeBin_jBinText (F : JFields) : jDecodeBin (jBinText F) = .ok F := by
  rw [jDecodeBin_ok (jBinText_length F) (jBinText_all F), jBinText_eq, ofNat_binValue_binRender,
    jFields_jWord]

theorem jDecodePackedHex_hexRender (F : JFields) :
    jDecodePackedHex (hexRender (jWord F).toNat 8) = .ok F := by
  rw [jDecodePackedHex_eq, hexToWord_hexRender, except_map_ok, jFields_jWord]

theorem jDecodeFieldHex_jFieldHexText (F : JFields) : jDecodeFieldHex (jFieldHexText F) = .ok F := by
  obtain ⟨hlen, hhex, hfit⟩ := jFieldHexValid_iff.1 (jFieldHexValid_jFieldHexText F)
  rw [jDecodeFieldHex_ok hlen hhex hfit, jOfFieldHex_text]

/-! The misread: a field-hex text given to the packed-hex decoder (rule R178). The 7 address digits hold
28 bits, so the text spells a number with the opcode 2 bits above its place in the word. -/

theorem jFieldHexText_ne_nil (F : JFields) : jFieldHexText F ≠ [] :=
  List.ne_nil_of_length_pos (by rw [jFieldHexText_length]; decide)

/-- The number that a J field-hex text spells as one hex text. -/
theorem hexValue_jFieldHexText (F : JFields) :
    hexValue (jFieldHexText F) = F.opcode.toNat * 2 ^ 28 + F.address.toNat := by
  rw [jFieldHexText, hexValue_append, hexValue_fhRender F.opcode (by decide),
    hexValue_fhRender F.address (by decide), fhRender, hexRender_length,
    show (16 : Nat) ^ fhDigits 26 = 2 ^ 28 by decide]

/-- That number is a word's exactly when the opcode fits in the 4 bits left for it. -/
theorem hexValue_jFieldHexText_lt_iff (F : JFields) :
    hexValue (jFieldHexText F) < 2 ^ 32 ↔ F.opcode.toNat ≤ 15 := by
  have haddr := F.address.isLt
  rw [hexValue_jFieldHexText]
  omega

/-- The fields of the misread word: the opcode four times as large, the address unchanged. -/
theorem jFields_misread_toNat {F : JFields} {w : Word} (h : F.opcode.toNat ≤ 15)
    (hw : w.toNat = hexValue (jFieldHexText F)) :
    (jFields w).opcode.toNat = 4 * F.opcode.toNat ∧ (jFields w).address.toNat = F.address.toNat := by
  have haddr := F.address.isLt
  obtain ⟨hop', haddr'⟩ := jFields_toNat w
  rw [hw, hexValue_jFieldHexText] at hop' haddr'
  omega

/-- The misread is the encoded tuple for opcode 0 alone. -/
theorem jToInts_misread_eq_iff {F G : JFields} (hop : G.opcode.toNat = 4 * F.opcode.toNat)
    (haddr : G.address.toNat = F.address.toNat) :
    jToInts G = jToInts F ↔ (jToInts F).opcode = 0 := by
  simp only [jToInts, JInts.mk.injEq, hop, haddr, and_true]
  omega

/-- Settles O40: each encoder writes a rendering of the tuple's fields or of their word, and the matching
decoder reads it back; a field-hex text read as packed hex is decided by the number it spells. -/
theorem jRoundTripsAndMisread : Obligations.JRoundTripsAndMisread := by
  refine ⟨fun f s h => ?_, fun w s => ?_, fun f s h => ?_⟩
  · simp only [exec_result]
    refine ⟨jOfInts f, jToInts_jOfInts h,
      ⟨_, resultOf_jEncoder_of_valid (jEncodeBin_eq f) h, ?_⟩,
      ⟨_, resultOf_jEncoder_of_valid (jEncodePackedHex_eq f) h, ?_⟩,
      ⟨_, resultOf_jEncoder_of_valid (jEncodeFieldHex_eq f) h, ?_⟩,
      ⟨_, resultOf_jEncoder_of_valid (jPack_eq f) h, ?_⟩⟩
    · exact resultOf_map_ok (jDecodeBin_jBinText _)
    · exact resultOf_map_ok (jDecodePackedHex_hexRender _)
    · exact resultOf_map_ok (jDecodeFieldHex_jFieldHexText _)
    · exact congrArg (Result.ok ∘ Output.jFields) (jFields_jWord _)
  · have hpack := resultOf_encoder_ok (g := .word) (jPack_eq _) (jCheck_jToInts (jFields w))
    rw [jWord_jFields] at hpack
    exact ⟨jFields w, exec_result.2 rfl, exec_result.2 hpack⟩
  · obtain ⟨F, rfl⟩ : ∃ F, jToInts F = f := ⟨_, jToInts_jOfInts h⟩
    have hopcode : (jToInts F).opcode = F.opcode.toNat := rfl
    have hhex := all_isHex_of_upper (jFieldHexText_upper F)
    have hfits := hexValue_jFieldHexText_lt_iff F
    simp only [exec_result]
    refine ⟨jFieldHexText F, resultOf_encoder_ok (jEncodeFieldHex_eq _) (jCheck_jToInts F),
      by omega, fun hsmall => ?_, fun hlarge => ?_⟩
    · obtain ⟨w, hw, hread⟩ :=
        exists_hexToWord_eq_ok (jFieldHexText_ne_nil F) hhex (hfits.2 (by omega))
      obtain ⟨hop, haddr⟩ := jFields_misread_toNat (by omega) hw
      exact ⟨w, jFields w, hw, rfl, resultOf_encoder_ok (jDecodePackedHex_eq _) hread,
        by omega, congrArg Nat.cast haddr, jToInts_misread_eq_iff hop haddr⟩
    · exact resultOf_encoder_error (jDecodePackedHex_eq _) (hexToWord_overflow hhex (by omega))

/-- Settles O26, by whether a field is out of range. -/
theorem jPackResult : Obligations.JPackResult := by
  refine fun f s => ⟨fun name v hbad => ?_, fun hgood => ?_⟩
  · exact exec_result.2 (resultOf_jEncoder_firstOutOfRange (jPack_eq f) hbad)
  · have hvalid := (jValid_iff f).2 hgood
    exact ⟨jWord (jOfInts f), jWord_jOfInts_toNat_or hvalid,
      exec_result.2 (resultOf_jEncoder_of_valid (jPack_eq f) hvalid)⟩

/-- Settles O28, by whether a field is out of range. -/
theorem jEncodeBinResult : Obligations.JEncodeBinResult := by
  refine fun f s => ⟨fun name v hbad => ?_, fun hgood => ?_⟩
  · exact exec_result.2 (resultOf_jEncoder_firstOutOfRange (jEncodeBin_eq f) hbad)
  · have hvalid := (jValid_iff f).2 hgood
    exact ⟨jBinText (jOfInts f), jWord (jOfInts f), jBinText_jOfInts hvalid,
      jWord_jOfInts_toNat_or hvalid, jBinText_eq _, jBinText_length _,
      exec_result.2 (resultOf_jEncoder_of_valid (jEncodeBin_eq f) hvalid)⟩

/-- Settles O29, check by check: the length, the alphabet, then the slices. -/
theorem jDecodeBinResult : Obligations.JDecodeBinResult := by
  refine fun t s => ⟨fun hlen => ?_, fun k c hlen hc hbad hfirst => ?_, fun hlen hbin => ?_⟩
  · exact exec_result.2 (resultOf_map_error (c := jDecodeBin t) (lengthFails hlen _))
  · exact exec_result.2
      (resultOf_map_error (c := jDecodeBin t) (charFails (A := .bin) hlen hc hbad hfirst _))
  · obtain ⟨hop, haddr⟩ := jFields_ofNat_binValue_toNat hlen hbin
    obtain ⟨mop, maddr⟩ := jFields_toNat_and (BitVec.ofNat 32 (binValue t))
    exact ⟨jFields (BitVec.ofNat 32 (binValue t)), BitVec.ofNat 32 (binValue t), hop, haddr,
      Nat.mod_eq_of_lt (hlen ▸ binValue_lt t), mop, maddr,
      exec_result.2 (resultOf_map_ok (jDecodeBin_ok hlen hbin))⟩

/-- Settles O30, by whether a field is out of range. -/
theorem jEncodePackedHexResult : Obligations.JEncodePackedHexResult := by
  refine fun f s => ⟨fun name v hbad => ?_, fun hgood => ?_⟩
  · exact exec_result.2 (resultOf_jEncoder_firstOutOfRange (jEncodePackedHex_eq f) hbad)
  · have hvalid := (jValid_iff f).2 hgood
    exact ⟨jWord (jOfInts f), jWord_jOfInts_toNat_or hvalid,
      exec_result.2 (resultOf_jEncoder_of_valid (jEncodePackedHex_eq f) hvalid)⟩

/-- Settles O31: the errors are those of `hex_to_word`, and its word is unpacked. -/
theorem jDecodePackedHexResult : Obligations.JDecodePackedHexResult := by
  refine fun t s => ⟨?_, fun k c hc hbad hfirst => ?_, fun hhex hlarge => ?_,
    fun hne hhex hlt => ?_⟩
  · rintro rfl
    exact exec_result.2
      (resultOf_encoder_error (g := .jFields) (jDecodePackedHex_eq []) hexToWord_nil)
  · exact exec_result.2
      (resultOf_encoder_error (jDecodePackedHex_eq t) (hexToWord_badChar hc hbad hfirst))
  · exact exec_result.2
      (resultOf_encoder_error (jDecodePackedHex_eq t) (hexToWord_overflow hhex hlarge))
  · obtain ⟨w, hw, hread⟩ := exists_hexToWord_eq_ok hne hhex hlt
    obtain ⟨hop, haddr⟩ := jFields_toNat_and w
    rw [hw] at hop haddr
    exact ⟨jFields w, hop, haddr,
      exec_result.2 (resultOf_encoder_ok (jDecodePackedHex_eq t) hread)⟩

/-- Settles O32, by whether a field is out of range. -/
theorem jEncodeFieldHexResult : Obligations.JEncodeFieldHexResult := by
  refine fun f s => ⟨fun name v hbad => ?_, fun hgood => ?_⟩
  · exact exec_result.2 (resultOf_jEncoder_firstOutOfRange (jEncodeFieldHex_eq f) hbad)
  · have hvalid := (jValid_iff f).2 hgood
    exact ⟨jFieldHexText (jOfInts f), jFieldHexText_jOfInts hvalid, jFieldHexText_length _,
      jFieldHexText_upper _,
      exec_result.2 (resultOf_jEncoder_of_valid (jEncodeFieldHex_eq f) hvalid)⟩

/-- Settles O33, check by check: the length, the alphabet, then each group's width. -/
theorem jDecodeFieldHexResult : Obligations.JDecodeFieldHexResult := by
  refine fun t s => ⟨fun hlen => ?_, fun k c hlen hc hbad hfirst => ?_,
    fun name v hlen hhex hwide => ?_, fun hlen hhex hfit => ?_⟩
  · exact exec_result.2 (resultOf_map_error (c := jDecodeFieldHex t) (lengthFails hlen _))
  · exact exec_result.2
      (resultOf_map_error (c := jDecodeFieldHex t) (charFails (A := .hex) hlen hc hbad hfirst _))
  · exact exec_result.2 (resultOf_map_error (jDecodeFieldHex_tooWide hlen hhex hwide))
  · obtain ⟨hop, haddr⟩ := jOfFieldHex_toNat hfit
    exact ⟨jOfFieldHex t, hop, haddr,
      exec_result.2 (resultOf_map_ok (jDecodeFieldHex_ok hlen hhex hfit))⟩

/-- Settles O27: the fields are the word's shifted and masked bits. -/
theorem jUnpackResult : Obligations.JUnpackResult := by
  intro w s
  obtain ⟨hop, haddr⟩ := jFields_toNat_and w
  exact ⟨jFields w, hop, haddr, exec_result.2 rfl⟩

end Sys2Proof.Machine

/-! SUPPORT. The errors that calls raise (rules R200, R203, R205): an input for each error kind that a port's
row of rule R200 names, and that an error is a call's whole effect. -/

namespace Sys2Proof.Machine

/-- What a caller presents at a port to have it raise a kind its row names: the empty text, a hex text of
value 2^32, or a tuple whose opcode is 64, one above its range. -/
def raisingInput : Port → ErrorKind → Input
  | _, .malformedInput => .text []
  | _, .integerOverflow => .text "100000000".toList
  | .rPack, _ | .rEncodeBin, _ | .rEncodePackedHex, _ | .rEncodeFieldHex, _ => .fields [64, 0, 0, 0, 0, 0]
  | .iPack, _ | .iEncodeBin, _ | .iEncodePackedHex, _ | .iEncodeFieldHex, _ => .fields [64, 0, 0, 0]
  | _, _ => .fields [64, 0]

/-- Each kind of a port's row is raised: the cases are the rows of `mayRaise`. -/
theorem raisingInput_raises {p : Port} {k : ErrorKind} (h : mayRaise p k = true) :
    ∃ i e, decode ⟨p, raisingInput p k⟩ = .ok i ∧ computed i = .error e ∧ kindOf e = k := by
  cases p
  case rPack | rEncodeBin | rEncodePackedHex | rEncodeFieldHex | iPack | iEncodeBin | iEncodePackedHex |
      iEncodeFieldHex | jPack | jEncodeBin | jEncodePackedHex | jEncodeFieldHex =>
    obtain rfl : k = .fieldOutOfRange := eq_of_beq h
    exact ⟨_, .fieldOutOfRange .opcode 64 6, rfl, rfl, rfl⟩
  case rDecodeBin | iDecodeBin | jDecodeBin | binToWord | rDecodeFieldHex | iDecodeFieldHex |
      jDecodeFieldHex =>
    obtain rfl : k = .malformedInput := eq_of_beq h
    exact ⟨_, .malformedInput (.badLength (.exactly _) 0), rfl, rfl, rfl⟩
  case rDecodePackedHex | iDecodePackedHex | jDecodePackedHex | hexToWord =>
    cases k with
    | malformedInput => exact ⟨_, .malformedInput (.badLength .atLeastOne 0), rfl, rfl, rfl⟩
    | integerOverflow => exact ⟨_, .integerOverflow (2 ^ 32), rfl, rfl, rfl⟩
    | fieldOutOfRange => cases h
  case rUnpack | iUnpack | jUnpack | wordToBin | wordToHex => cases h

/-- Settles O45: a port raises a kind of its row on `raisingInput`, and by `computed_mayAnswer` no other. -/
theorem errorKindsAndTheirPorts : Obligations.ErrorKindsAndTheirPorts := by
  refine ⟨rfl, rfl, rfl, fun p k => ⟨fun h => ?_, ?_⟩⟩
  · obtain ⟨i, e, hdecode, herror, hkind⟩ := raisingInput_raises h
    exact ⟨i, .reset, e, port_of_decode_eq_ok hdecode, hkind,
      exec_result.2 (resultOf_eq_err.2 herror)⟩
  · rintro ⟨i, s, e, rfl, rfl, hexec⟩
    have hanswer := computed_mayAnswer i
    rw [exec_result.1 hexec] at hanswer
    exact hanswer

/-- Settles O48: the ill-formed call ends in one error (O46), and the next call's result is a function of
that call alone (O47), so it is the same in both states. -/
theorem errorReturnsOnlyTheError : Obligations.ErrorReturnsOnlyTheError := by
  intro i j s hill
  obtain ⟨e, hi⟩ := (callSucceedsExactlyOnValidInput i s).2.2 hill
  obtain ⟨r, hj⟩ := resultDependsOnTheCallAlone j
  exact ⟨e, r, hi, hj _, hj s⟩

end Sys2Proof.Machine

/-! SUPPORT. Where the two invariants start (rule R230): a state that has returned nothing is legal, and one
to which nothing is presented is typed. `stepKeepsResultsLegal` and `step_keeps_typed` carry them on. -/

namespace Sys2Proof.Machine

theorem legal_of_results_nil {s : State} (h : s.results = []) : s.legal = true := by
  rw [State.legal, h, List.all_nil]

theorem typed_of_calls_nil {s : State} (h : s.calls = []) : s.typed = true := by
  rw [State.typed, h, List.all_nil]

/-- Settles O53: at reset both lists are empty. -/
theorem resetResultsLegal : Obligations.ResetResultsLegal :=
  ⟨legal_of_results_nil reset_results, typed_of_calls_nil reset_calls⟩

end Sys2Proof.Machine

/-! SUPPORT. The idle step (the model's choice, log entry 3). -/

namespace Sys2Proof.Machine

/-- Settles O3: it is the model's rule for a step at an empty queue, `step_of_calls_nil`. -/
theorem stepWithNothingPresentedChangesNothing : Obligations.StepWithNothingPresentedChangesNothing :=
  fun _ => step_of_calls_nil

end Sys2Proof.Machine
